-- ==== Sys2Proof/Word.lean ====
section
/-! DEFINITION. The word types of the core (spec/00_scope.md R7, R8, R11, R12). -/

namespace Sys2Proof

/-- An 8-bit unsigned value: a general register, a memory cell, an operand byte, the flags register
(spec/00_scope.md R7). -/
abbrev Byte := BitVec 8

/-- The index of a general register that exists, 0..7 (spec/10_state.md R21). -/
abbrev Reg := Fin 8

end Sys2Proof
end

