-- ==== Sys2Proof/Config.lean ====
section
/-! DEFINITION. What one implementation fixes (spec/00_scope.md section 4). -/

namespace Sys2Proof.Config

/-- `EAGER_OPERAND_CHECK` (spec/00_scope.md R9): "This spec's hardware takes `true`." Both settings are
modelled (`Sys2Proof.Machine.stepWith`); this one is the hardware's. -/
def eagerOperandCheck : Bool := true

/-- `PC_RESET` (spec/10_state.md R31). -/
def pcReset : Nat := 0

/-- `SP_RESET` (spec/10_state.md R36). -/
def spReset : Nat := 0xF4

/-- `R7_RESET` (spec/10_state.md R24). -/
def r7Reset : Byte := 0xF4

/-- The value `State.reset` gives each of R0..R6, whose reset values are draws (spec/10_state.md R26).
DESIGN CHOICE, unsafe: notes/assumptions/1.md. -/
def regReset : Byte := 0

/-- The value `State.reset` gives `fl`, whose reset value is a draw (spec/10_state.md R39).
DESIGN CHOICE, unsafe: notes/assumptions/2.md. -/
def flReset : Byte := 0

/-- What a memory cell that nothing has written reads as in `State.reset` (spec/10_state.md R44: a draw),
and the one value the memory list leaves out. DESIGN CHOICE, unsafe: notes/assumptions/3.md. -/
def unlistedByte : Byte := 0

/-- `EXIT_HALT` (spec/60_exceptions.md R216). -/
def exitHalt : Nat := 0

/-- The host's open exit codes (spec/60_exceptions.md R216, spec/92_eei_decisions.md D11): no value is
chosen for them, a claim takes them as an argument. -/
structure HostParams where
  exitLoadError  : Nat
  exitIllegal    : Nat
  exitOutOfRange : Nat
  deriving DecidableEq, Repr

/-- What R216 says of the codes: the first two are non-zero and distinct; nothing is said of the third. -/
abbrev HostParams.Legal (p : HostParams) : Prop :=
  p.exitLoadError ≠ 0 ∧ p.exitIllegal ≠ 0 ∧ p.exitLoadError ≠ p.exitIllegal

end Sys2Proof.Config
end

