-- ==== Sys2Proof/Machine/State.lean ====
section
/-! DEFINITION. The state of the core: the tuple of spec/10_state.md R20, as plain data; and the state right
after reset. -/

namespace Sys2Proof.Machine

/-- The run state (spec/10_state.md R40). -/
inductive RunState where
  | running
  | halted
  | faulted
  deriving DecidableEq, Repr

/-- The causes of spec/60_exceptions.md R201. -/
inductive Cause where
  | none
  | illegalInstruction
  | outOfRange
  deriving DecidableEq, Repr

/-- The domain a bad value belongs to (spec/60_exceptions.md R207). -/
inductive Space where
  | none
  | memory
  | register
  deriving DecidableEq, Repr

/-- The fault record (spec/60_exceptions.md R207). `pc` ranges over 0..256 and `value` over -1..256; that
every reachable record is such is the invariant `Sys2Proof.Machine.Inv`. -/
structure FaultRecord where
  cause : Cause
  pc    : Nat
  space : Space
  value : Int
  deriving DecidableEq, Repr

/-- The 256 cells of memory: address and byte pairs, addresses strictly rising, no byte equal to what an
unlisted cell reads as (`Memory.wf` in Ops.lean). -/
abbrev Memory := List Host.Cell

/-- The complete architectural state (spec/10_state.md R20). `pc` and `sp` are the spec's integers 0..256
(R28, R34: they never wrap); that they stay in that range is the invariant `Sys2Proof.Machine.Inv`. -/
structure State where
  /-- R0..R7 (spec/10_state.md R21). -/
  x     : Vector Byte 8
  /-- The address of the next instruction (R27), 0..256 (R28). -/
  pc    : Nat
  /-- The address of the most recently pushed byte (R33), 0..256 (R34). -/
  sp    : Nat
  /-- Bit 0 E, bit 1 G (R37). -/
  fl    : Byte
  /-- Code, data and stack (R44). -/
  mem   : Memory
  run   : RunState
  /-- Written only on entry to FAULTED (R41). -/
  fault : FaultRecord
  /-- The values written by `PRINT`, oldest first (R42). -/
  out   : List Byte
  deriving DecidableEq, Repr

/-- Why the machine takes no step. The spec's own faults (IllegalInstruction, OutOfRange) are NOT here: they
are next states with `run = FAULTED` (spec/60_exceptions.md R203, R204). -/
inductive Fault where
  /-- Raised by `step` alone, in a HALTED state, which has no step (spec/40_fetch_decode_execute.md R90). Safe:
  nothing is proved of a step that does not exist (notes/assumptions/5.md). -/
  | halted
  /-- Raised by `step` alone, in a FAULTED state, which has no step (spec/60_exceptions.md R206). Safe
  (notes/assumptions/5.md). -/
  | faulted
  deriving DecidableEq, Repr

/-- Why an instruction has no meaning. -/
inductive Refusal where
  /-- Raised by an arm of `exec` whose instruction has no meaning yet. Safe. No arm of this model raises it. -/
  | notModelled (mnemonic : String)
  deriving DecidableEq, Repr

/-- The outcome of a step or of one instruction. -/
abbrev Result := Host.Outcome State Fault Refusal

/-- The fault record at reset: cause 0, the other fields unset (spec/60_exceptions.md R207). The values of the
unset fields are a DESIGN CHOICE (notes/assumptions/4.md); nothing reads or shows them. -/
def FaultRecord.reset : FaultRecord :=
  { cause := .none, pc := 0, space := .none, value := 0 }

/-- The machine right after reset (spec/70_reset_and_hazards.md R230) with no image and with the draws
REG_INIT, FL_INIT and MEM_INIT at the values the log names (DESIGN CHOICE, unsafe: notes/assumptions/1.md, 2.md,
3.md). `Sys2Proof.Machine.resetWith` is the reset for every image and every draw. -/
def State.reset : State :=
  { x     := #v[Config.regReset, Config.regReset, Config.regReset, Config.regReset, Config.regReset,
                Config.regReset, Config.regReset, Config.r7Reset]
    pc    := Config.pcReset
    sp    := Config.spReset
    fl    := Config.flReset
    mem   := []
    run   := .running
    fault := FaultRecord.reset
    out   := [] }

end Sys2Proof.Machine
end

