-- ==== Sys2Proof/Machine/Flags.lean ====
section
/-! DEFINITION. The flags register: its fields and the compare that computes them (spec/10_state.md R37,
spec/42_alu.md R134). -/

namespace Sys2Proof.Machine

/-- Bit 0, E: the last compare found its operands equal (spec/10_state.md R37). -/
def flagE (fl : Byte) : Bool := fl.getLsbD 0

/-- Bit 1, G: the last compare found its first operand greater; no instruction reads it (spec/44_jumps.md
R187). -/
def flagG (fl : Byte) : Bool := fl.getLsbD 1

/-- `(g << 1) | e` with bits 7:2 zero, the operands unsigned (spec/42_alu.md R134). -/
def compareFlags (u v : Byte) : Byte :=
  let e : Byte := if u = v then 1 else 0
  let g : Byte := if u.toNat > v.toNat then 1 else 0
  (g <<< 1) ||| e

end Sys2Proof.Machine
end

