-- ==== Sys2Proof/Machine/Ops.lean ====
section
/-! DEFINITION. The named operations over memory, registers and the other fields: the pseudocode primitives of
spec/00_scope.md R13 and R14, raising a fault (spec/60_exceptions.md R203, R204), and the stack's push and pop
(spec/10_state.md R33, R34). -/

namespace Sys2Proof.Machine

/-- The byte at an address. A cell the list leaves out reads as `Config.unlistedByte`. -/
def Memory.read (m : Memory) (a : Nat) : Byte := (m.lookup a).getD Config.unlistedByte

/-- The memory without an entry for the address. -/
def Memory.erase (m : Memory) (a : Nat) : Memory := m.filter fun c => c.1 != a

/-- A new entry put before the first one at a higher address. -/
def Memory.insert : Memory → Nat → Byte → Memory
  | [], a, v => [(a, v)]
  | c :: rest, a, v => if a < c.1 then (a, v) :: c :: rest else c :: Memory.insert rest a v

/-- `mem[a] <- v`, in the canonical form. -/
def Memory.write (m : Memory) (a : Nat) (v : Byte) : Memory :=
  if v = Config.unlistedByte then m.erase a else (m.erase a).insert a v

/-- The entries from address `lo` up are in the canonical form: addresses strictly rising and below 256
(spec/20_memory.md R50), no byte equal to what an unlisted cell reads as. -/
def Memory.wfFrom : Nat → Memory → Bool
  | _, [] => true
  | lo, c :: rest =>
    decide (lo ≤ c.1) && decide (c.1 < 256) && decide (c.2 ≠ Config.unlistedByte) && Memory.wfFrom (c.1 + 1) rest

/-- The canonical form: two memories in it that read alike are equal. -/
def Memory.wf (m : Memory) : Bool := Memory.wfFrom 0 m

/-- The bytes as memory from address `a` up, in the canonical form. -/
def Memory.ofBytes : Nat → List Byte → Memory
  | _, [] => []
  | a, v :: rest =>
    if v = Config.unlistedByte then Memory.ofBytes (a + 1) rest else (a, v) :: Memory.ofBytes (a + 1) rest

/-- `x[i]` (spec/00_scope.md R13). -/
def State.reg (s : State) (i : Reg) : Byte := s.x[i.val]

/-- `x[i] <- v` (spec/00_scope.md R13). No register is hardwired (spec/10_state.md R23). -/
def State.setReg (s : State) (i : Reg) (v : Byte) : State := { s with x := s.x.set i.val v }

/-- `pc <- a`. -/
def State.setPc (s : State) (a : Nat) : State := { s with pc := a }

/-- `pc <- pc + n`, which never wraps (spec/10_state.md R28). -/
def State.advance (s : State) (n : Nat) : State := s.setPc (s.pc + n)

/-- `sp <- a`. -/
def State.setSp (s : State) (a : Nat) : State := { s with sp := a }

/-- `fl <- v`, all 8 bits (spec/10_state.md R38). -/
def State.setFl (s : State) (v : Byte) : State := { s with fl := v }

/-- `mem[a] <- v mod 256` at an address that has been checked (spec/20_memory.md R54). -/
def State.store (s : State) (a v : Nat) : State := { s with mem := s.mem.write a (BitVec.ofNat 8 v) }

/-- `emit(v)`: the value joins the output stream, oldest first (spec/60_exceptions.md R214). -/
def State.emit (s : State) (v : Byte) : State := { s with out := s.out ++ [v] }

/-- `halt` (spec/00_scope.md R13). -/
def State.halt (s : State) : State := { s with run := .halted }

/-- What a fault does: FAULTED, with the record, and nothing else (spec/60_exceptions.md R203, R204). There is
no handler and no return from it (R206, R210, R211). -/
def State.raise (s : State) (cause : Cause) (space : Space) (value : Int) : State :=
  { s with run := .faulted, fault := { cause := cause, pc := s.pc, space := space, value := value } }

/-- `raise IllegalInstruction(op)` (spec/60_exceptions.md R203). -/
def raiseIllegalInstruction (op : Byte) (s : State) : Result :=
  .next (s.raise .illegalInstruction .none (op.toNat : Int))

/-- `raise OutOfRange(space, value)` (spec/60_exceptions.md R204). -/
def raiseOutOfRange (space : Space) (value : Int) (s : State) : Result :=
  .next (s.raise .outOfRange space value)

/-- `AddrCheck(a)` (spec/00_scope.md R14), then `k` with the address. -/
def addrCheck (a : Int) (s : State) (k : Nat → Result) : Result :=
  if a < 0 ∨ 255 < a then raiseOutOfRange .memory a s else k a.toNat

/-- `RegCheck(i)` (spec/00_scope.md R14), then `k` with the register. -/
def regCheck (i : Byte) (s : State) (k : Reg → Result) : Result :=
  if h : i.toNat < 8 then k ⟨i.toNat, h⟩ else raiseOutOfRange .register (i.toNat : Int) s

/-- `MemRead(a, 1)` (spec/20_memory.md R53), then `k` with the byte. -/
def memRead (a : Int) (s : State) (k : Byte → Result) : Result :=
  addrCheck a s fun n => k (s.mem.read n)

/-- A push: the address `sp - 1` is checked, `sp` goes there, and the value's low byte is stored there
(spec/10_state.md R33, R34); then `k` with that state. -/
def push (v : Nat) (s : State) (k : State → Result) : Result :=
  addrCheck ((s.sp : Int) - 1) s fun top => k ((s.setSp top).store top v)

/-- A pop: the byte at `sp` is read, then `sp` goes up by one (spec/10_state.md R33, R34); then `k` with the
byte and that state. The byte stays in memory. -/
def pop (s : State) (k : Byte → State → Result) : Result :=
  memRead (s.sp : Int) s fun v => k v (s.setSp (s.sp + 1))

end Sys2Proof.Machine
end

