-- ==== Sys2Proof/Machine/Operands.lean ====
section
/-! DEFINITION. The operand forms (spec/30_encoding.md R71 to R74): a register, a pair of registers, an
immediate byte; and an operand byte's fetch. -/

namespace Sys2Proof.Machine

/-- A register operand that the instruction accesses: the whole byte is the index (spec/30_encoding.md R72,
spec/10_state.md R25). -/
def regOperand (r : Byte) (s : State) (k : Reg → Result) : Result := regCheck r s k

/-- Two register operands, the first checked first (spec/60_exceptions.md R208 item 5). -/
def regPair (a b : Byte) (s : State) (k : Reg → Reg → Result) : Result :=
  regCheck a s fun ra => regCheck b s fun rb => k ra rb

/-- The immediate operand: the byte itself, with no extension (spec/30_encoding.md R73). -/
def immOperand (imm : Byte) : Byte := imm

/-- The operand byte at `pc + n` (spec/40_fetch_decode_execute.md R94), then `k` with it. -/
def operandByte (n : Nat) (s : State) (k : Byte → Result) : Result :=
  memRead ((s.pc : Int) + (n : Int)) s k

end Sys2Proof.Machine
end

