-- ==== Sys2Proof/Machine/Alu.lean ====
section
/-! DEFINITION. The ALU and its three instructions (spec/42_alu.md). -/

namespace Sys2Proof.Machine

/-- The ALU's operation select has exactly these values; the source's `UnsupportedOperation` has no
constructor (spec/00_scope.md R18, spec/42_alu.md R138). -/
inductive AluOp where
  | add
  | mul
  | cmp
  deriving DecidableEq, Repr

/-- What the ALU puts out: a result byte, or the flags. -/
inductive AluOutput where
  | result (v : Byte)
  | flags (fl : Byte)
  deriving DecidableEq, Repr

/-- The three operations: the exact sum or product of the unsigned operands kept modulo 256
(spec/42_alu.md R136), and the compare (R134). -/
def alu : AluOp → Byte → Byte → AluOutput
  | .add, u, v => .result (BitVec.ofNat 8 ((u.toNat + v.toNat) % 256))
  | .mul, u, v => .result (BitVec.ofNat 8 ((u.toNat * v.toNat) % 256))
  | .cmp, u, v => .flags (compareFlags u v)

/-- Where the output goes: a result to the first operand's register, the flags to `fl`. -/
def State.writeAlu (s : State) (a : Reg) : AluOutput → State
  | .result v => s.setReg a v
  | .flags fl => s.setFl fl

/-- Both register operands are checked, then both are read, then the output is written (spec/42_alu.md R138),
and `pc <- pc + 3`. -/
def aluInstr (op : AluOp) (a b : Byte) (s : State) : Result :=
  regPair a b s fun ra rb => .next ((s.writeAlu ra (alu op (s.reg ra) (s.reg rb))).advance 3)

/-- `ADD(a, b)` (spec/42_alu.md R130). -/
def execAdd (a b : Byte) (s : State) : Result := aluInstr .add a b s

/-- `MUL(a, b)` (spec/42_alu.md R132). -/
def execMul (a b : Byte) (s : State) : Result := aluInstr .mul a b s

/-- `CMP(a, b)` (spec/42_alu.md R134). -/
def execCmp (a b : Byte) (s : State) : Result := aluInstr .cmp a b s

end Sys2Proof.Machine
end

