-- ==== Sys2Proof/Machine/HaltLoadPrint.lean ====
section
/-! DEFINITION. `HALT`, `LOAD_IMMEDIATE` and `PRINT` (spec/41_halt_load_print.md). -/

namespace Sys2Proof.Machine

/-- `HALT` (spec/41_halt_load_print.md R110). -/
def execHalt (s : State) : Result := .next (s.advance 1).halt

/-- `LOAD_IMMEDIATE(r, imm)` (spec/41_halt_load_print.md R112). -/
def execLoadImmediate (r imm : Byte) (s : State) : Result :=
  regOperand r s fun rd => .next ((s.setReg rd (immOperand imm)).advance 3)

/-- `PRINT(r)` (spec/41_halt_load_print.md R114). -/
def execPrint (r : Byte) (s : State) : Result :=
  regOperand r s fun rs => .next ((s.emit (s.reg rs)).advance 2)

end Sys2Proof.Machine
end

