-- ==== Sys2Proof/Machine/Jumps.lean ====
section
/-! DEFINITION. `JUMP`, `JUMP_IF_EQUAL` and `JUMP_IF_NOT_EQUAL` (spec/44_jumps.md). -/

namespace Sys2Proof.Machine

/-- `RegCheck(r); pc <- x[r]`: every target is absolute and from a register (spec/44_jumps.md R186). -/
def jumpTo (r : Byte) (s : State) : Result :=
  regOperand r s fun rt => .next (s.setPc (s.reg rt).toNat)

/-- The jump when the condition holds, else `pc <- pc + 2` with the register neither read nor checked
(spec/44_jumps.md R182, R184). -/
def jumpWhen (taken : Bool) (r : Byte) (s : State) : Result :=
  if taken then jumpTo r s else .next (s.advance 2)

/-- `JUMP(r)` (spec/44_jumps.md R180). -/
def execJump (r : Byte) (s : State) : Result := jumpTo r s

/-- `JUMP_IF_EQUAL(r)` (spec/44_jumps.md R182). -/
def execJumpIfEqual (r : Byte) (s : State) : Result := jumpWhen (flagE s.fl) r s

/-- `JUMP_IF_NOT_EQUAL(r)` (spec/44_jumps.md R184). -/
def execJumpIfNotEqual (r : Byte) (s : State) : Result := jumpWhen (!flagE s.fl) r s

end Sys2Proof.Machine
end

