-- ==== Sys2Proof/Machine/Stack.lean ====
section
/-! DEFINITION. `PUSH`, `POP`, `CALL` and `RETURN` (spec/43_stack_and_subroutine.md). -/

namespace Sys2Proof.Machine

/-- `PUSH(r)` (spec/43_stack_and_subroutine.md R150). -/
def execPush (r : Byte) (s : State) : Result :=
  regOperand r s fun rs => push (s.reg rs).toNat s fun s' => .next (s'.advance 2)

/-- `POP(r)` (spec/43_stack_and_subroutine.md R152). `POP(7)` writes R7; `sp` is as the pop leaves it. -/
def execPop (r : Byte) (s : State) : Result :=
  regOperand r s fun rd => pop s fun v s' => .next ((s'.setReg rd v).advance 2)

/-- `CALL(r)` (spec/43_stack_and_subroutine.md R154): the target is read before the push, and the pushed byte
is `pc + 2` modulo 256. -/
def execCall (r : Byte) (s : State) : Result :=
  regOperand r s fun rt => push (s.pc + 2) s fun s' => .next (s'.setPc (s.reg rt).toNat)

/-- `RETURN` (spec/43_stack_and_subroutine.md R156). -/
def execRet (s : State) : Result :=
  pop s fun t s' => .next (s'.setPc t.toNat)

end Sys2Proof.Machine
end

