-- ==== Sys2Proof/Syntax.lean ====
section
/-! DEFINITION. The instructions: one constructor for each row of spec/opcode_table.json
(spec/30_encoding.md R76), the operands in encoding order (R84). -/

namespace Sys2Proof

/-- An instruction with its operand bytes. A register operand is the WHOLE operand byte, 0..255, neither
masked nor checked here (spec/30_encoding.md R72, R79): a byte 8..255 is an instruction too, which faults
only when it accesses the register. -/
inductive Instr where
  | halt
  | loadImmediate (r imm : Byte)
  | print (r : Byte)
  | add (a b : Byte)
  | mul (a b : Byte)
  | cmp (a b : Byte)
  | push (r : Byte)
  | pop (r : Byte)
  | call (r : Byte)
  | ret
  | jump (r : Byte)
  | jumpIfEqual (r : Byte)
  | jumpIfNotEqual (r : Byte)
  deriving DecidableEq, Repr

/-- The length in bytes (spec/30_encoding.md R76). -/
def Instr.length : Instr → Nat
  | .halt => 1
  | .loadImmediate _ _ => 3
  | .print _ => 2
  | .add _ _ => 3
  | .mul _ _ => 3
  | .cmp _ _ => 3
  | .push _ => 2
  | .pop _ => 2
  | .call _ => 2
  | .ret => 1
  | .jump _ => 2
  | .jumpIfEqual _ => 2
  | .jumpIfNotEqual _ => 2

/-- The register operand bytes, in encoding order (spec/30_encoding.md R71). -/
def Instr.regOperands : Instr → List Byte
  | .halt => []
  | .loadImmediate r _ => [r]
  | .print r => [r]
  | .add a b => [a, b]
  | .mul a b => [a, b]
  | .cmp a b => [a, b]
  | .push r => [r]
  | .pop r => [r]
  | .call r => [r]
  | .ret => []
  | .jump r => [r]
  | .jumpIfEqual r => [r]
  | .jumpIfNotEqual r => [r]

end Sys2Proof
end

