-- ==== Sys2Proof/Machine/Dispatch.lean ====
section
/-! DEFINITION. The execute phase: one arm for each instruction (spec/40_fetch_decode_execute.md R95, R96). -/

namespace Sys2Proof.Machine

def exec (i : Instr) (s : State) : Host.Outcome State Fault Refusal :=
  match i with
  | .halt => Sys2Proof.Machine.execHalt s
  | .loadImmediate r imm => Sys2Proof.Machine.execLoadImmediate r imm s
  | .print r => Sys2Proof.Machine.execPrint r s
  | .add a b => Sys2Proof.Machine.execAdd a b s
  | .mul a b => Sys2Proof.Machine.execMul a b s
  | .cmp a b => Sys2Proof.Machine.execCmp a b s
  | .push r => Sys2Proof.Machine.execPush r s
  | .pop r => Sys2Proof.Machine.execPop r s
  | .call r => Sys2Proof.Machine.execCall r s
  | .ret => Sys2Proof.Machine.execRet s
  | .jump r => Sys2Proof.Machine.execJump r s
  | .jumpIfEqual r => Sys2Proof.Machine.execJumpIfEqual r s
  | .jumpIfNotEqual r => Sys2Proof.Machine.execJumpIfNotEqual r s

end Sys2Proof.Machine
end

