-- ==== Sys2Proof/WellFormed.lean ====
section
/-! DEFINITION. Well-formed instructions: every register operand names a register that exists. This is
NOT a condition of decoding or of running: a byte 8..255 decodes normally (spec/30_encoding.md R79) and the
instruction then raises OutOfRange(REGISTER, index) when it accesses the register (spec/10_state.md R25). -/

namespace Sys2Proof

/-- A register operand byte is an index 0..7 (spec/10_state.md R25). -/
def validReg (r : Byte) : Bool := decide (r.toNat ≤ 7)

/-- Every register operand of the instruction is an index 0..7. The opcode and the immediate have no illegal
value here: an `Instr` holds only the 13 opcodes, and "An immediate byte has no illegal value"
(spec/30_encoding.md R79). -/
def Instr.wellFormed (i : Instr) : Bool := i.regOperands.all validReg

end Sys2Proof
end

