-- ==== Sys2Proof/Decode.lean ====
section
/-! DEFINITION. The decoder, total on any bytes, and after it the encoder (spec/30_encoding.md R70 to R80,
R86). -/

namespace Sys2Proof

/-- A row of the opcode table: its format (spec/30_encoding.md R71) and the instruction that its operand
bytes make. -/
inductive Row where
  | f0 (i : Instr)
  | f1r (mk : Byte → Instr)
  | f2ri (mk : Byte → Byte → Instr)
  | f2rr (mk : Byte → Byte → Instr)

/-- The complete opcode table (spec/30_encoding.md R76). -/
def opcodeTable : List (Byte × Row) :=
  [ (0x01#8, .f0 .halt),
    (0x82#8, .f2ri .loadImmediate),
    (0x47#8, .f1r .print),
    (0xA0#8, .f2rr .add),
    (0xA2#8, .f2rr .mul),
    (0xA7#8, .f2rr .cmp),
    (0x45#8, .f1r .push),
    (0x46#8, .f1r .pop),
    (0x50#8, .f1r .call),
    (0x11#8, .f0 .ret),
    (0x54#8, .f1r .jump),
    (0x55#8, .f1r .jumpIfEqual),
    (0x56#8, .f1r .jumpIfNotEqual) ]

/-- The row whose pattern equals the whole opcode byte, if any (spec/30_encoding.md R75); `none` for each of
the 243 illegal opcodes (R78). -/
def rowOf (op : Byte) : Option Row := opcodeTable.lookup op

/-- Why bytes are no instruction. -/
inductive DecodeError where
  /-- There is no byte at all. -/
  | noOpcode
  /-- The opcode byte is not in the table (spec/30_encoding.md R78). -/
  | illegalOpcode (op : Byte)
  /-- The opcode is in the table but fewer operand bytes follow than its format has. -/
  | missingOperand (op : Byte)
  deriving DecidableEq, Repr

/-- The operand bytes of the selected row, taken from the bytes after the opcode (spec/30_encoding.md R71,
R75). Operand bytes are not checked (R79). -/
def decodeOperands (op : Byte) : Row → List Byte → Except DecodeError (Instr × List Byte)
  | .f0 i, rest => .ok (i, rest)
  | .f1r mk, r :: rest => .ok (mk r, rest)
  | .f2ri mk, r :: imm :: rest => .ok (mk r imm, rest)
  | .f2rr mk, a :: b :: rest => .ok (mk a b, rest)
  | _, _ => .error (.missingOperand op)

/-- The instruction at the head of the bytes, and the bytes after it. -/
def decode : List Byte → Except DecodeError (Instr × List Byte)
  | [] => .error .noOpcode
  | op :: rest =>
    match rowOf op with
    | none => .error (.illegalOpcode op)
    | some row => decodeOperands op row rest

/-- The three bytes of an instruction word as spec/opcode_table.json numbers its bits: bit 0 is the least
significant bit of the opcode byte, the first operand is bits 15..8, the second bits 23..16; bits at and
above `nbits` are 0. -/
def tableWordBytes (nbits w : Nat) : List Byte :=
  let v := w % 2 ^ nbits
  [BitVec.ofNat 8 v, BitVec.ofNat 8 (v / 256), BitVec.ofNat 8 (v / 65536)]

/-- The instruction the decoder reads from a table word. -/
def decodeTableWord (nbits w : Nat) : Option Instr :=
  match decode (tableWordBytes nbits w) with
  | .ok (i, _) => some i
  | .error _ => none

/-- The opcode byte (spec/30_encoding.md R76). -/
def Instr.opcode : Instr → Byte
  | .halt => 0b00000001#8
  | .loadImmediate _ _ => 0b10000010#8
  | .print _ => 0b01000111#8
  | .add _ _ => 0b10100000#8
  | .mul _ _ => 0b10100010#8
  | .cmp _ _ => 0b10100111#8
  | .push _ => 0b01000101#8
  | .pop _ => 0b01000110#8
  | .call _ => 0b01010000#8
  | .ret => 0b00010001#8
  | .jump _ => 0b01010100#8
  | .jumpIfEqual _ => 0b01010101#8
  | .jumpIfNotEqual _ => 0b01010110#8

/-- The operand bytes in encoding order (spec/30_encoding.md R84). -/
def Instr.operandBytes : Instr → List Byte
  | .halt => []
  | .loadImmediate r imm => [r, imm]
  | .print r => [r]
  | .add a b => [a, b]
  | .mul a b => [a, b]
  | .cmp a b => [a, b]
  | .push r => [r]
  | .pop r => [r]
  | .call r => [r]
  | .ret => []
  | .jump r => [r]
  | .jumpIfEqual r => [r]
  | .jumpIfNotEqual r => [r]

/-- "the opcode byte of rule R76, then each operand as one byte", at ascending addresses
(spec/30_encoding.md R86). -/
def encode (i : Instr) : List Byte := i.opcode :: i.operandBytes

end Sys2Proof
end

