-- ==== Sys2Proof/Machine/Fetch.lean ====
section
/-! DEFINITION. Fetch, decode and operand fetch, with their checks in the spec's order
(spec/40_fetch_decode_execute.md R91 to R94, R96). -/

namespace Sys2Proof.Machine

/-- The eager operand check: with `EAGER_OPERAND_CHECK`, `AddrCheck(pc + 1)` then `AddrCheck(pc + 2)`, whatever
the instruction (spec/40_fetch_decode_execute.md R92). -/
def eagerCheck (eager : Bool) (s : State) (k : Result) : Result :=
  if eager then
    addrCheck ((s.pc : Int) + 1) s fun _ => addrCheck ((s.pc : Int) + 2) s fun _ => k
  else k

/-- The operand bytes of the selected row, in address order, and the instruction they make
(spec/40_fetch_decode_execute.md R94). -/
def fetchOperands (row : Row) (s : State) (k : Instr → Result) : Result :=
  match row with
  | .f0 i => k i
  | .f1r mk => operandByte 1 s fun r => k (mk r)
  | .f2ri mk => operandByte 1 s fun r => operandByte 2 s fun imm => k (mk r imm)
  | .f2rr mk => operandByte 1 s fun a => operandByte 2 s fun b => k (mk a b)

/-- The instruction at `pc`, or the fault of the first check that fails (spec/40_fetch_decode_execute.md R96,
spec/60_exceptions.md R208); then `k` with it. -/
def fetch (eager : Bool) (s : State) (k : Instr → Result) : Result :=
  memRead (s.pc : Int) s fun op =>
    eagerCheck eager s
      (match rowOf op with
       | none => raiseIllegalInstruction op s
       | some row => fetchOperands row s k)

/-- The bytes put into memory from address `a` up; a byte that would lie above address 255 is dropped, since
there is no such cell. -/
def Memory.writeBytes (m : Memory) (a : Nat) : List Byte → Memory
  | [] => m
  | v :: rest => Memory.writeBytes (if a < 256 then m.write a v else m) (a + 1) rest

/-- The bytes a fetch at `pc` can take an instruction from: the cells `pc`, `pc + 1` and `pc + 2` that exist. -/
def State.codeBytes (s : State) : List Byte :=
  (([s.pc, s.pc + 1, s.pc + 2] : List Nat).filter (fun a => decide (a < 256))).map s.mem.read

end Sys2Proof.Machine
end

