-- ==== Sys2Proof/Machine/Step.lean ====
section
/-! DEFINITION. The step (spec/40_fetch_decode_execute.md R96). -/

namespace Sys2Proof.Machine

/-- One step under either setting of `EAGER_OPERAND_CHECK` (spec/00_scope.md R9). Only RUNNING takes steps; in
HALTED and FAULTED there is none (spec/10_state.md R40; notes/assumptions/5.md). -/
def stepWith (eager : Bool) (s : State) : Result :=
  match s.run with
  | .running => fetch eager s fun i => exec i s
  | .halted => .fault .halted
  | .faulted => .fault .faulted

/-- One step of this hardware. -/
def step (s : State) : Host.Outcome State Fault Refusal := stepWith Config.eagerOperandCheck s

/-- `s` with the instruction of a table word stored where `step` fetches its next instruction: the three bytes
from `pc` up (notes/assumptions/6.md). -/
def State.withFetchWord (s : State) (nbits w : Nat) : State :=
  { s with mem := s.mem.writeBytes s.pc (tableWordBytes nbits w) }

end Sys2Proof.Machine
end

