-- ==== Sys2Proof/Machine/Reset.lean ====
section
/-! DEFINITION. The reset transition for every image and every draw, and the images it refuses
(spec/70_reset_and_hazards.md R230 to R234). -/

namespace Sys2Proof.Machine

/-- Why a run never starts. -/
inductive LoadError where
  /-- The program file is missing or unreadable (spec/60_exceptions.md R200, `LoadError`). -/
  | unreadableFile
  /-- A line is not a valid binary literal (R200, `MalformedInstruction`). -/
  | malformedInstruction
  /-- A value of the image is above 255 (spec/70_reset_and_hazards.md R233). -/
  | valueTooLarge
  /-- The image has more than 256 bytes (spec/70_reset_and_hazards.md R233). -/
  | imageTooLong
  deriving DecidableEq, Repr

/-- The three draws: free inputs of the reset transition under no law (spec/00_scope.md R10). The first n cells
of `memInit` are covered by an image of n bytes. -/
structure Draws where
  regInit : Vector Byte 7
  flInit  : Byte
  memInit : Vector Byte 256
  deriving DecidableEq, Repr

/-- The draws that `State.reset` takes (DESIGN CHOICE, unsafe: notes/assumptions/1.md, 2.md, 3.md). -/
def Draws.named : Draws :=
  { regInit := Vector.replicate 7 Config.regReset
    flInit  := Config.flReset
    memInit := Vector.replicate 256 Config.unlistedByte }

/-- The image's values as bytes, or the first that does not fit. -/
def imageBytes : List Nat → Except LoadError (List Byte)
  | [] => .ok []
  | v :: rest =>
    if 255 < v then .error .valueTooLarge
    else
      match imageBytes rest with
      | .ok bs => .ok (BitVec.ofNat 8 v :: bs)
      | .error e => .error e

/-- An image the memory cannot hold is refused and the run does not start (spec/70_reset_and_hazards.md
R233). -/
def checkImage (image : List Nat) : Except LoadError (List Byte) :=
  if 256 < image.length then .error .imageTooLong else imageBytes image

/-- The state `reset` produces from an accepted image (spec/70_reset_and_hazards.md R230). -/
def resetState (image : List Byte) (d : Draws) : State :=
  { x     := d.regInit.push Config.r7Reset
    pc    := Config.pcReset
    sp    := Config.spReset
    fl    := d.flInit
    mem   := Memory.ofBytes 0 (image ++ d.memInit.toList.drop image.length)
    run   := .running
    fault := FaultRecord.reset
    out   := [] }

/-- The reset transition (spec/70_reset_and_hazards.md R230, R233). It takes no state: "nothing survives a
reset" (R234). -/
def resetWith (image : List Nat) (d : Draws) : Except LoadError State :=
  match checkImage image with
  | .ok bs => .ok (resetState bs d)
  | .error e => .error e

end Sys2Proof.Machine
end

