-- ==== Sys2Proof/Machine/Interface.lean ====
section
/-! DEFINITION. What the block shows to the outside (spec/00_scope.md R17, spec/40_fetch_decode_execute.md
R101) and the host's renderings of it (spec/60_exceptions.md R214, R216). No step uses any of these. -/

namespace Sys2Proof.Machine

/-- The run state on the status output (spec/10_state.md R40). -/
def RunState.code : RunState → Nat
  | .running => 0
  | .halted => 1
  | .faulted => 2

/-- The cause's code in the fault record (spec/60_exceptions.md R201). -/
def Cause.code : Cause → Nat
  | .none => 0
  | .illegalInstruction => 1
  | .outOfRange => 2

/-- What leaves the block: the output stream, the run state and, when FAULTED, the fault record
(spec/40_fetch_decode_execute.md R101, spec/60_exceptions.md R207). -/
structure Observation where
  out   : List Byte
  run   : RunState
  fault : Option FaultRecord
  deriving DecidableEq, Repr

/-- The registers, flags, `sp` and memory are not an output of the block (spec/40_fetch_decode_execute.md
R101). -/
def observe (s : State) : Observation :=
  { out   := s.out
    run   := s.run
    fault := if s.run = .faulted then some s.fault else none }

/-- The host's exit status at the end of a run, none while it goes on (spec/60_exceptions.md R216). A FAULTED
state has cause 1 or 2 (`Sys2Proof.Machine.Inv`). -/
def exitStatus (p : Config.HostParams) (s : State) : Option Nat :=
  match s.run, s.fault.cause with
  | .running, _ => none
  | .halted, _ => some Config.exitHalt
  | .faulted, .illegalInstruction => some p.exitIllegal
  | .faulted, .outOfRange => some p.exitOutOfRange
  | .faulted, .none => none

/-- The exit status of a run that a load error kept from starting: every load error gives the one code
(spec/60_exceptions.md R216). -/
def loadErrorStatus (p : Config.HostParams) (_ : LoadError) : Nat := p.exitLoadError

/-- The decimal digits of a byte. -/
def decimalDigits (v : Byte) : List Char := Nat.toDigits 10 v.toNat

/-- The host's lines of output, one for each value, as decimal digits; the characters of the line break are
left out (spec/60_exceptions.md R214, spec/91_not_in_source.md N17). -/
def outputLines (s : State) : List (List Char) := s.out.map decimalDigits

end Sys2Proof.Machine
end

