-- ==== Sys2Proof/Machine/Loader.lean ====
section
/-! DEFINITION. The loader at the block's boundary: from a program file's characters to an image
(spec/30_encoding.md R85, spec/70_reset_and_hazards.md R232, R233). It is outside the block (spec/00_scope.md
R4) and no step uses it; the conventions it fixes are notes/assumptions/7.md. -/

namespace Sys2Proof.Machine

/-- The characters the loader trims from a line's two ends (DESIGN CHOICE: notes/assumptions/7.md). -/
def isBlankChar (c : Char) : Bool := c == ' ' || c == '\t' || c == '\r'

/-- A line up to its `#`, trimmed. -/
def lineToken (line : List Char) : List Char :=
  (((line.takeWhile (· != '#')).dropWhile isBlankChar).reverse.dropWhile isBlankChar).reverse

/-- The number the characters write in binary after `acc`, most significant digit first; none if one of them
is no binary digit. -/
def binaryValue : Nat → List Char → Option Nat
  | acc, [] => some acc
  | acc, c :: rest =>
    if c == '0' then binaryValue (2 * acc) rest
    else if c == '1' then binaryValue (2 * acc + 1) rest
    else none

/-- The lines of a file: split at line feeds. -/
def fileLines : List Char → List (List Char)
  | [] => [[]]
  | c :: rest =>
    match fileLines rest with
    | [] => [[c]]
    | l :: ls => if c == '\n' then [] :: l :: ls else (c :: l) :: ls

/-- The values of the lines, in order; a line that is blank once its comment is gone gives none. -/
def linesValues : List (List Char) → Except LoadError (List Nat)
  | [] => .ok []
  | line :: rest =>
    match lineToken line with
    | [] => linesValues rest
    | token =>
      match binaryValue 0 token, linesValues rest with
      | none, _ => .error .malformedInstruction
      | some _, .error e => .error e
      | some v, .ok vs => .ok (v :: vs)

/-- The image of a program file; no file is a load error (spec/60_exceptions.md R200). -/
def loadFile : Option (List Char) → Except LoadError (List Nat)
  | none => .error .unreadableFile
  | some text => linesValues (fileLines text)

/-- Load, then reset: "load-time errors never allow the run loop to start" (spec/70_reset_and_hazards.md
R233). -/
def start (file : Option (List Char)) (d : Draws) : Except LoadError State :=
  match loadFile file with
  | .ok image => resetWith image d
  | .error e => .error e

end Sys2Proof.Machine
end

