-- ==== Sys2Proof/Safety.lean ====
section
/-! DEFINITION. The terms the statements are made in: the invariant of the machine, what a fault leaves, and
which instructions write what. -/

namespace Sys2Proof.Machine

/-- A legal fault record of a FAULTED state (spec/60_exceptions.md R201, R207): cause 1 with an opcode byte that
is not in the table, or cause 2 with the address -1 or 256 or with a register index 8..255; and the pc that the
state still holds (R205). -/
abbrev FaultRecord.Legal (f : FaultRecord) (pc : Nat) : Prop :=
  f.pc = pc ∧
  ((f.cause = .illegalInstruction ∧ f.space = .none ∧ 0 ≤ f.value ∧ f.value ≤ 255 ∧
      (rowOf (BitVec.ofNat 8 f.value.toNat)).isNone = true) ∨
   (f.cause = .outOfRange ∧ f.space = .memory ∧ (f.value = -1 ∨ f.value = 256)) ∨
   (f.cause = .outOfRange ∧ f.space = .register ∧ 8 ≤ f.value ∧ f.value ≤ 255))

/-- The invariant: pc and sp stay in 0..256 (spec/10_state.md R28, R34), memory keeps its canonical form, and the
fault record is legal exactly in FAULTED and is as reset left it otherwise (R41; that it keeps its reset value is
the model's own choice, notes/assumptions/4.md). -/
abbrev Inv (s : State) : Prop :=
  s.pc ≤ 256 ∧ s.sp ≤ 256 ∧ s.mem.wf = true ∧
  (s.run = .faulted → s.fault.Legal s.pc) ∧
  (s.run ≠ .faulted → s.fault = FaultRecord.reset)

/-- A safe run never reaches FAULTED. -/
abbrev Safe (s : State) : Prop := s.run ≠ .faulted

/-- `raise IllegalInstruction(op)` as spec/60_exceptions.md R203 writes it. -/
def afterIllegalInstruction (s : State) (op : Byte) : State :=
  { s with run := .faulted,
           fault := { cause := .illegalInstruction, pc := s.pc, space := .none, value := (op.toNat : Int) } }

/-- `raise OutOfRange(space, value)` as spec/60_exceptions.md R204 writes it. -/
def afterOutOfRange (s : State) (space : Space) (value : Int) : State :=
  { s with run := .faulted,
           fault := { cause := .outOfRange, pc := s.pc, space := space, value := value } }

/-- The 13 opcodes (spec/30_encoding.md R78). -/
def legalOpcodes : List Byte :=
  [0x01, 0x11, 0x45, 0x46, 0x47, 0x50, 0x54, 0x55, 0x56, 0x82, 0xA0, 0xA2, 0xA7]

/-- The register operand byte an instruction writes the register of, if any (spec/10_state.md R23). -/
def writtenReg : Instr → Option Byte
  | .loadImmediate r _ => some r
  | .add a _ => some a
  | .mul a _ => some a
  | .pop r => some r
  | .halt | .print _ | .cmp _ _ | .push _ | .call _ | .ret | .jump _ | .jumpIfEqual _ | .jumpIfNotEqual _ => none

/-- The instructions that write memory: one byte at `sp - 1` (spec/20_memory.md R51). -/
def pushes : Instr → Bool
  | .push _ | .call _ => true
  | .halt | .loadImmediate _ _ | .print _ | .add _ _ | .mul _ _ | .cmp _ _ | .pop _ | .ret | .jump _
  | .jumpIfEqual _ | .jumpIfNotEqual _ => false

/-- The instructions that read the stack: one byte at `sp` (spec/20_memory.md R51). -/
def pops : Instr → Bool
  | .pop _ | .ret => true
  | .halt | .loadImmediate _ _ | .print _ | .add _ _ | .mul _ _ | .cmp _ _ | .push _ | .call _ | .jump _
  | .jumpIfEqual _ | .jumpIfNotEqual _ => false

/-- The line of a program file that gives a byte: its 8 binary digits, most significant first
(spec/00_scope.md R11, spec/30_encoding.md R85). -/
def binaryLine (v : Byte) : List Char :=
  [7, 6, 5, 4, 3, 2, 1, 0].map fun n => if v.getLsbD n then '1' else '0'

/-- The instructions executed one after another on a state, as long as each gives a next state. -/
def execAll : List Instr → State → Result
  | [], s => .next s
  | i :: rest, s =>
    match exec i s with
    | .next s' => execAll rest s'
    | .fault r => .fault r
    | .refused r => .refused r

/-- `n` steps, one after another, as long as each gives a next state. -/
def runSteps : Nat → State → Result
  | 0, s => .next s
  | n + 1, s =>
    match step s with
    | .next s' => runSteps n s'
    | .fault r => .fault r
    | .refused r => .refused r

end Sys2Proof.Machine
end

