-- ==== Sys2Proof/Certificates/Slice0/Obligations.lean ====
section
/-! DEFINITION. The statements for the provers. Every register operand byte, every state and both settings of
EAGER_OPERAND_CHECK are covered unless a hypothesis says otherwise. A spec fault is a NEXT state with
`run = FAULTED` (spec/60_exceptions.md R203, R204): `afterOutOfRange`, `afterIllegalInstruction`. -/

open Sys2Proof Sys2Proof.Machine

/-! ### The 13 instructions, one whole rule each -/

/-- spec/41_halt_load_print.md R110. -/
def Obligations.HaltStopsTheMachine : Prop :=
  (∀ rest : List Byte, decode (0x01#8 :: rest) = .ok (.halt, rest)) ∧
  (∀ s : State, exec .halt s = .next { s with pc := s.pc + 1, run := .halted }) ∧
  (∀ s : State, s.run = .running → (s.pc = 254 ∨ s.pc = 255) → s.mem.read s.pc = 0x01#8 →
    stepWith true s = .next (afterOutOfRange s .memory 256)) ∧
  (∀ s : State, s.run = .running → s.pc = 255 → s.mem.read s.pc = 0x01#8 →
    stepWith false s = .next { s with pc := 256, run := .halted }) ∧
  (∀ (s t : State), exec .halt s = .next t →
    (∀ (eager : Bool) u, stepWith eager t ≠ .next u) ∧ ∀ p, exitStatus p t = some 0)

/-- spec/41_halt_load_print.md R112. -/
def Obligations.LoadImmediateWritesTheConstant : Prop :=
  ∀ r imm : Byte,
  (∀ rest : List Byte, decode (0x82#8 :: r :: imm :: rest) = .ok (.loadImmediate r imm, rest)) ∧
  (∀ (s : State) (h : r.toNat < 8),
    exec (.loadImmediate r imm) s = .next { s with x := s.x.set r.toNat imm h, pc := s.pc + 3 }) ∧
  (∀ s : State, 8 ≤ r.toNat → exec (.loadImmediate r imm) s = .next (afterOutOfRange s .register (r.toNat : Int))) ∧
  (∀ (eager : Bool) (s t : State), s.run = .running → s.pc = 253 → r.toNat < 8 → exec (.loadImmediate r imm) s = .next t →
    t.pc = 256 ∧ stepWith eager t = .next (afterOutOfRange t .memory 256))

/-- `PRINT` as spec/41_halt_load_print.md R114 gives it. In the last clause the exact form of the host's line (decimal
digits with no leading zeros, no sign and no line break) is the model's choice (notes/assumptions/10.md:
spec/91_not_in_source.md N17 leaves it open). -/
def Obligations.PrintEmitsTheRegister : Prop :=
  ∀ r : Byte,
  (∀ rest : List Byte, decode (0x47#8 :: r :: rest) = .ok (.print r, rest)) ∧
  (∀ (s : State) (h : r.toNat < 8),
    exec (.print r) s = .next { s with out := s.out ++ [s.x[r.toNat]'h], pc := s.pc + 2 }) ∧
  (∀ s : State, 8 ≤ r.toNat → exec (.print r) s = .next (afterOutOfRange s .register (r.toNat : Int))) ∧
  (∀ (s t : State) (h : r.toNat < 8), exec (.print r) s = .next t →
    outputLines t = outputLines s ++ [Nat.toDigits 10 (s.x[r.toNat]'h).toNat])

/-- spec/42_alu.md R130. -/
def Obligations.AddWrapsModulo256 : Prop :=
  ∀ a b : Byte,
  (∀ rest : List Byte, decode (0xA0#8 :: a :: b :: rest) = .ok (.add a b, rest)) ∧
  (∀ (s : State) (ha : a.toNat < 8) (hb : b.toNat < 8), ∃ t v, exec (.add a b) s = .next t ∧
    t = { s with x := s.x.set a.toNat v ha, pc := s.pc + 3 } ∧
    v.toNat = ((s.x[a.toNat]'ha).toNat + (s.x[b.toNat]'hb).toNat) % 256) ∧
  (∀ s : State, 8 ≤ a.toNat → exec (.add a b) s = .next (afterOutOfRange s .register (a.toNat : Int))) ∧
  (∀ s : State, a.toNat < 8 → 8 ≤ b.toNat → exec (.add a b) s = .next (afterOutOfRange s .register (b.toNat : Int)))

/-- spec/42_alu.md R132. -/
def Obligations.MulKeepsTheLowByte : Prop :=
  ∀ a b : Byte,
  (∀ rest : List Byte, decode (0xA2#8 :: a :: b :: rest) = .ok (.mul a b, rest)) ∧
  (∀ (s : State) (ha : a.toNat < 8) (hb : b.toNat < 8), ∃ t v, exec (.mul a b) s = .next t ∧
    t = { s with x := s.x.set a.toNat v ha, pc := s.pc + 3 } ∧
    v.toNat = ((s.x[a.toNat]'ha).toNat * (s.x[b.toNat]'hb).toNat) % 256) ∧
  (∀ s : State, 8 ≤ a.toNat → exec (.mul a b) s = .next (afterOutOfRange s .register (a.toNat : Int))) ∧
  (∀ s : State, a.toNat < 8 → 8 ≤ b.toNat → exec (.mul a b) s = .next (afterOutOfRange s .register (b.toNat : Int)))

/-- spec/42_alu.md R134. -/
def Obligations.CmpSetsTheFlags : Prop :=
  ∀ a b : Byte,
  (∀ rest : List Byte, decode (0xA7#8 :: a :: b :: rest) = .ok (.cmp a b, rest)) ∧
  (∀ (s : State) (ha : a.toNat < 8) (hb : b.toNat < 8), exec (.cmp a b) s = .next
    { s with fl := if s.x[a.toNat]'ha = s.x[b.toNat]'hb then 0x01#8
                   else if (s.x[b.toNat]'hb).toNat < (s.x[a.toNat]'ha).toNat then 0x02#8 else 0x00#8,
             pc := s.pc + 3 }) ∧
  (∀ s : State, 8 ≤ a.toNat → exec (.cmp a b) s = .next (afterOutOfRange s .register (a.toNat : Int))) ∧
  (∀ s : State, a.toNat < 8 → 8 ≤ b.toNat → exec (.cmp a b) s = .next (afterOutOfRange s .register (b.toNat : Int)))

/-- spec/43_stack_and_subroutine.md R150. The byte stored to is the one at `s.sp - 1`. -/
def Obligations.PushStoresBelowTheTop : Prop :=
  ∀ r : Byte,
  (∀ rest : List Byte, decode (0x45#8 :: r :: rest) = .ok (.push r, rest)) ∧
  (∀ (s : State) (h : r.toNat < 8), 1 ≤ s.sp → s.sp ≤ 256 → ∃ t, exec (.push r) s = .next t ∧
    t = { s with sp := s.sp - 1, pc := s.pc + 2, mem := t.mem } ∧
    t.mem.read (s.sp - 1) = s.x[r.toNat]'h ∧
    ∀ a, a ≠ s.sp - 1 → t.mem.read a = s.mem.read a) ∧
  (∀ s : State, 8 ≤ r.toNat → exec (.push r) s = .next (afterOutOfRange s .register (r.toNat : Int))) ∧
  (∀ s : State, r.toNat < 8 → s.sp = 0 → exec (.push r) s = .next (afterOutOfRange s .memory (-1)))

/-- spec/43_stack_and_subroutine.md R152. -/
def Obligations.PopLoadsTheTop : Prop :=
  ∀ r : Byte,
  (∀ rest : List Byte, decode (0x46#8 :: r :: rest) = .ok (.pop r, rest)) ∧
  (∀ (s : State) (h : r.toNat < 8), s.sp ≤ 255 → exec (.pop r) s = .next
    { s with x := s.x.set r.toNat (s.mem.read s.sp) h, sp := s.sp + 1, pc := s.pc + 2 }) ∧
  (∀ s : State, 8 ≤ r.toNat → exec (.pop r) s = .next (afterOutOfRange s .register (r.toNat : Int))) ∧
  (∀ s : State, r.toNat < 8 → s.sp = 256 → exec (.pop r) s = .next (afterOutOfRange s .memory 256))

/-- spec/43_stack_and_subroutine.md R154. The byte stored to is the one at `s.sp - 1`. -/
def Obligations.CallPushesTheReturnAddress : Prop :=
  ∀ r : Byte,
  (∀ rest : List Byte, decode (0x50#8 :: r :: rest) = .ok (.call r, rest)) ∧
  (∀ (s : State) (h : r.toNat < 8), 1 ≤ s.sp → s.sp ≤ 256 → ∃ t, exec (.call r) s = .next t ∧
    t = { s with sp := s.sp - 1, pc := (s.x[r.toNat]'h).toNat, mem := t.mem } ∧
    (t.mem.read (s.sp - 1)).toNat = (s.pc + 2) % 256 ∧
    ∀ a, a ≠ s.sp - 1 → t.mem.read a = s.mem.read a) ∧
  (∀ s : State, 8 ≤ r.toNat → exec (.call r) s = .next (afterOutOfRange s .register (r.toNat : Int))) ∧
  (∀ s : State, r.toNat < 8 → s.sp = 0 → exec (.call r) s = .next (afterOutOfRange s .memory (-1))) ∧
  (∀ s : State, s.run = .running → (s.pc = 254 ∨ s.pc = 255) → s.mem.read s.pc = 0x50#8 →
    stepWith true s = .next (afterOutOfRange s .memory 256)) ∧
  (∀ s : State, s.run = .running → s.pc = 254 → s.mem.read 254 = 0x50#8 → s.mem.read 255 = r → r.toNat < 8 →
    1 ≤ s.sp → s.sp ≤ 256 → ∃ t, stepWith false s = .next t ∧ t.mem.read t.sp = 0)

/-- spec/43_stack_and_subroutine.md R156. -/
def Obligations.ReturnJumpsToTheTop : Prop :=
  (∀ rest : List Byte, decode (0x11#8 :: rest) = .ok (.ret, rest)) ∧
  (∀ s : State, s.sp ≤ 255 → exec .ret s = .next { s with pc := (s.mem.read s.sp).toNat, sp := s.sp + 1 }) ∧
  (∀ s : State, s.sp = 256 → exec .ret s = .next (afterOutOfRange s .memory 256)) ∧
  (∀ s : State, s.run = .running → (s.pc = 254 ∨ s.pc = 255) → s.mem.read s.pc = 0x11#8 →
    stepWith true s = .next (afterOutOfRange s .memory 256))

/-- spec/44_jumps.md R180. -/
def Obligations.JumpGoesToTheRegister : Prop :=
  ∀ r : Byte,
  (∀ rest : List Byte, decode (0x54#8 :: r :: rest) = .ok (.jump r, rest)) ∧
  (∀ (s : State) (h : r.toNat < 8), exec (.jump r) s = .next { s with pc := (s.x[r.toNat]'h).toNat }) ∧
  (∀ s : State, 8 ≤ r.toNat → exec (.jump r) s = .next (afterOutOfRange s .register (r.toNat : Int))) ∧
  (∀ (s : State) (h : r.toNat < 8), (s.x[r.toNat]'h).toNat = s.pc → exec (.jump r) s = .next s) ∧
  (∀ (s : State) (h : r.toNat < 8), s.run = .running → 254 ≤ (s.x[r.toNat]'h).toNat →
    ∃ t, exec (.jump r) s = .next t ∧ stepWith true t = .next (afterOutOfRange t .memory 256))

/-- spec/44_jumps.md R182. -/
def Obligations.JumpIfEqualTestsTheEqualBit : Prop :=
  ∀ r : Byte,
  (∀ rest : List Byte, decode (0x55#8 :: r :: rest) = .ok (.jumpIfEqual r, rest)) ∧
  (∀ (s : State) (h : r.toNat < 8), s.fl.getLsbD 0 = true →
    exec (.jumpIfEqual r) s = .next { s with pc := (s.x[r.toNat]'h).toNat }) ∧
  (∀ s : State, 8 ≤ r.toNat → s.fl.getLsbD 0 = true →
    exec (.jumpIfEqual r) s = .next (afterOutOfRange s .register (r.toNat : Int))) ∧
  (∀ s : State, s.fl.getLsbD 0 = false → exec (.jumpIfEqual r) s = .next { s with pc := s.pc + 2 })

/-- spec/44_jumps.md R184. -/
def Obligations.JumpIfNotEqualTestsTheEqualBit : Prop :=
  ∀ r : Byte,
  (∀ rest : List Byte, decode (0x56#8 :: r :: rest) = .ok (.jumpIfNotEqual r, rest)) ∧
  (∀ (s : State) (h : r.toNat < 8), s.fl.getLsbD 0 = false →
    exec (.jumpIfNotEqual r) s = .next { s with pc := (s.x[r.toNat]'h).toNat }) ∧
  (∀ s : State, 8 ≤ r.toNat → s.fl.getLsbD 0 = false →
    exec (.jumpIfNotEqual r) s = .next (afterOutOfRange s .register (r.toNat : Int))) ∧
  (∀ s : State, s.fl.getLsbD 0 = true → exec (.jumpIfNotEqual r) s = .next { s with pc := s.pc + 2 })

/-! ### Frames and whole-machine rules over all instructions -/

/-- spec/10_state.md R23: only `LOAD_IMMEDIATE`, `ADD`, `MUL` and `POP` write a general register, and only their
destination (`writtenReg`); for the other nine instructions every register is unchanged. -/
def Obligations.GeneralRegistersFrame : Prop :=
  ∀ (i : Instr) (s t : State) (k : Reg), exec i s = .next t → writtenReg i ≠ some (BitVec.ofNat 8 k.val) →
    t.x[k.val] = s.x[k.val]

/-- spec/10_state.md R38: only `CMP` writes `fl`, and what it leaves there does not depend on what was there. -/
def Obligations.OnlyCmpWritesTheFlags : Prop :=
  (∀ (i : Instr) (s t : State), (∀ a b, i ≠ .cmp a b) → exec i s = .next t → t.fl = s.fl) ∧
  (∀ a b (s : State) f, a.toNat < 8 → b.toNat < 8 → exec (.cmp a b) { s with fl := f } = exec (.cmp a b) s)

/-- spec/20_memory.md R51: `PUSH` and `CALL` store one byte, at `sp - 1`, and every other address reads as
before; the other eleven instructions store nothing, so every address reads as before. -/
def Obligations.MemoryFrame : Prop :=
  ∀ (i : Instr) (s t : State), exec i s = .next t →
    (pushes i = false → ∀ a, t.mem.read a = s.mem.read a) ∧
    (∀ a : Nat, (a : Int) ≠ (s.sp : Int) - 1 → t.mem.read a = s.mem.read a)

/-- spec/10_state.md R32. -/
def Obligations.StackPointerIsSeparate : Prop :=
  (∀ (i : Instr) (s t : State), pushes i = false → pops i = false → exec i s = .next t →
    t.sp = s.sp ∧ ∀ p, exec i { s with sp := p } = .next { t with sp := p }) ∧
  (∀ (i : Instr) (s t : State), exec i s = .next t → t.sp = s.sp ∨ t.sp = s.sp + 1 ∨ t.sp + 1 = s.sp) ∧
  (∀ (i : Instr) (s t : State), (pushes i = true ∨ i = .ret) → exec i s = .next t → t.x = s.x) ∧
  (∀ r (s t : State), exec (.pop r) s = .next t →
    ∀ k : Reg, t.x[k.val] = s.x[k.val] ∨ t.x[k.val] = s.mem.read s.sp)

/-- spec/10_state.md R41, spec/60_exceptions.md R205: an instruction either leaves `run` (but for `HALT`) and the
fault record alone and is done, or has raised a fault and changed nothing else. -/
def Obligations.RunAndFaultRecordFrame : Prop :=
  ∀ (i : Instr) (s t : State), exec i s = .next t →
    (t.fault = s.fault ∧ t.run = (if i = .halt then .halted else s.run)) ∨
    (∃ space value, t = afterOutOfRange s space value)

/-- spec/10_state.md R29: the new pc of every instruction that does not fault. -/
def Obligations.NextPcOfEveryInstruction : Prop :=
  ∀ (i : Instr) (s t : State), s.run = .running → exec i s = .next t →
    if t.run = .faulted then t.pc = s.pc else
      match i with
      | .halt => t.pc = s.pc + 1
      | .loadImmediate _ _ | .add _ _ | .mul _ _ | .cmp _ _ => t.pc = s.pc + 3
      | .print _ | .push _ | .pop _ => t.pc = s.pc + 2
      | .call r => ∃ h : r.toNat < 8, t.pc = (s.x[r.toNat]'h).toNat ∧ t.mem.read t.sp = BitVec.ofNat 8 (s.pc + 2)
      | .ret => t.pc = (s.mem.read s.sp).toNat
      | .jump r => ∃ h : r.toNat < 8, t.pc = (s.x[r.toNat]'h).toNat
      | .jumpIfEqual r =>
        if s.fl.getLsbD 0 then ∃ h : r.toNat < 8, t.pc = (s.x[r.toNat]'h).toNat else t.pc = s.pc + 2
      | .jumpIfNotEqual r =>
        if s.fl.getLsbD 0 then t.pc = s.pc + 2 else ∃ h : r.toNat < 8, t.pc = (s.x[r.toNat]'h).toNat

/-- spec/44_jumps.md R187: two states that differ in bits 7:1 of `fl` alone run every instruction alike (`CMP`
overwrites them: `OnlyCmpWritesTheFlags`), and bit 0 too is read by the two conditional jumps alone. -/
def Obligations.OnlyTheEqualBitIsTested : Prop :=
  (∀ (i : Instr) (s : State) f, (∀ a b, i ≠ .cmp a b) → f.getLsbD 0 = s.fl.getLsbD 0 → ∀ t : State, exec i s = .next t →
    exec i { s with fl := f } = .next { t with fl := f }) ∧
  (∀ (i : Instr) (s : State) f, (∀ r, i ≠ .jumpIfEqual r) → (∀ r, i ≠ .jumpIfNotEqual r) → (∀ a b, i ≠ .cmp a b) → ∀ t : State,
    exec i s = .next t → exec i { s with fl := f } = .next { t with fl := f })

/-- spec/10_state.md R24. -/
def Obligations.RegisterSevenIsDecoupledFromTheStackPointer : Prop :=
  (∀ image d (s : State), resetWith image d = .ok s → s.x[7] = 0xF4#8) ∧
  (∀ (i : Instr) (s t : State), writtenReg i = some 7 → pops i = false → exec i s = .next t → t.sp = s.sp) ∧
  (∀ (i : Instr) (s t : State), (pushes i = true ∨ pops i = true) → i ≠ .pop 7 → exec i s = .next t → t.x[7] = s.x[7]) ∧
  (∀ s : State, s.sp ≤ 255 → ∃ t, exec (.pop 7) s = .next t ∧ t.x[7] = s.mem.read s.sp ∧ t.sp = s.sp + 1)

/-- spec/10_state.md R37: the fields of `fl` after a compare. -/
def Obligations.FlagFieldsAfterCompare : Prop :=
  ∀ (a b : Byte) (s : State) (ha : a.toNat < 8) (hb : b.toNat < 8), ∃ t, exec (.cmp a b) s = .next t ∧
    (flagE t.fl = true ↔ s.x[a.toNat]'ha = s.x[b.toNat]'hb) ∧
    (flagG t.fl = true ↔ (s.x[b.toNat]'hb).toNat < (s.x[a.toNat]'ha).toNat) ∧
    ∀ n, 2 ≤ n → t.fl.getLsbD n = false

/-- spec/60_exceptions.md R202, the execute phase: which instruction raises which fault. -/
def Obligations.WhichFaultsAnInstructionRaises : Prop :=
  ∀ (i : Instr) (s t : State), s.sp ≤ 256 → s.run = .running → exec i s = .next t → t.run = .faulted →
    ∃ space value, t = afterOutOfRange s space value ∧
      match i with
      | .halt => False
      | .ret => space = .memory ∧ value = 256 ∧ s.sp = 256
      | .loadImmediate r _ | .print r | .jump r => space = .register ∧ value = (r.toNat : Int) ∧ 7 < r.toNat
      | .add a b | .mul a b | .cmp a b =>
        space = .register ∧
          ((7 < a.toNat ∧ value = (a.toNat : Int)) ∨ (a.toNat ≤ 7 ∧ 7 < b.toNat ∧ value = (b.toNat : Int)))
      | .push r | .call r =>
        (space = .register ∧ value = (r.toNat : Int) ∧ 7 < r.toNat) ∨
          (space = .memory ∧ value = -1 ∧ s.sp = 0 ∧ r.toNat ≤ 7)
      | .pop r =>
        (space = .register ∧ value = (r.toNat : Int) ∧ 7 < r.toNat) ∨
          (space = .memory ∧ value = 256 ∧ s.sp = 256 ∧ r.toNat ≤ 7)
      | .jumpIfEqual r =>
        space = .register ∧ value = (r.toNat : Int) ∧ 7 < r.toNat ∧ s.fl.getLsbD 0 = true
      | .jumpIfNotEqual r =>
        space = .register ∧ value = (r.toNat : Int) ∧ 7 < r.toNat ∧ s.fl.getLsbD 0 = false

/-- Every instruction with every operand byte runs in every state: it answers a next state, its effect
(spec/41_halt_load_print.md R110, R112, R114; spec/42_alu.md R130, R132, R134; spec/43_stack_and_subroutine.md R150,
R152, R154, R156; spec/44_jumps.md R180, R182, R184) or a recorded fault (spec/60_exceptions.md R204), and no stop. -/
def Obligations.EveryInstructionAnswersANextState : Prop :=
  ∀ (i : Instr) (s : State), ∃ t, exec i s = .next t

/-- An instruction whose register operands all exist raises no OutOfRange(REGISTER, _): with the stack pointer
strictly inside memory it raises nothing (spec/60_exceptions.md R202). -/
def Obligations.WellFormedInstructionsAreSafe : Prop :=
  ∀ (i : Instr) (s : State), i.wellFormed = true → Safe s → 1 ≤ s.sp → s.sp ≤ 255 → ∃ t, exec i s = .next t ∧ Safe t

/-! ### The step -/

/-- spec/40_fetch_decode_execute.md R96: when the cells at `pc` decode to an instruction and the checks of the
fetch pass, the step is that instruction's execute phase on the same state (it writes the next pc itself, R95). -/
def Obligations.StepRunsTheDecodedInstruction : Prop :=
  (∀ (eager : Bool) (s : State) (i : Instr) (rest : List Byte), s.run = .running → s.pc ≤ 255 → (eager = true → s.pc ≤ 253) →
    decode s.codeBytes = .ok (i, rest) → stepWith eager s = exec i s) ∧
  (∀ (s : State) (i : Instr) (rest : List Byte), s.run = .running → s.pc ≤ 253 → decode s.codeBytes = .ok (i, rest) → step s = exec i s)

/-- The instruction of a table word runs as the very next step where it is put (the model's own operation,
notes/assumptions/6.md). -/
def Obligations.FetchWordRunsNext : Prop :=
  ∀ (s : State) nbits w (i : Instr), s.run = .running → s.pc ≤ 253 → decodeTableWord nbits w = some i →
    step (s.withFetchWord nbits w) = exec i (s.withFetchWord nbits w)

/-- spec/60_exceptions.md R208: the first check that fails is the fault, in the rule's order. -/
def Obligations.FirstFailingCheckIsTheFault : Prop :=
  (∀ (eager : Bool) (s : State), s.run = .running → 255 < s.pc →
    stepWith eager s = .next (afterOutOfRange s .memory (s.pc : Int))) ∧
  (∀ s : State, s.run = .running → (s.pc = 254 ∨ s.pc = 255) →
    stepWith true s = .next (afterOutOfRange s .memory 256)) ∧
  (∀ (eager : Bool) (s : State), s.run = .running → s.pc ≤ 255 → (eager = true → s.pc ≤ 253) →
    s.mem.read s.pc ∉ legalOpcodes →
    stepWith eager s = .next (afterIllegalInstruction s (s.mem.read s.pc))) ∧
  (∀ (s : State) op, s.run = .running → s.pc ≤ 255 → decode s.codeBytes = .error (.missingOperand op) →
    stepWith false s = .next (afterOutOfRange s .memory 256)) ∧
  (∀ (i : Instr) (s : State) r (rest : List Byte), i.regOperands = r :: rest → 8 ≤ r.toNat →
    (∀ r', i = .jumpIfEqual r' → s.fl.getLsbD 0 = true) →
    (∀ r', i = .jumpIfNotEqual r' → s.fl.getLsbD 0 = false) →
    exec i s = .next (afterOutOfRange s .register (r.toNat : Int))) ∧
  (∀ (i : Instr) (s : State) a b, i.regOperands = [a, b] → a.toNat < 8 → 8 ≤ b.toNat →
    exec i s = .next (afterOutOfRange s .register (b.toNat : Int))) ∧
  (∀ (i : Instr) (s : State), pushes i = true → i.wellFormed = true → s.sp = 0 →
    exec i s = .next (afterOutOfRange s .memory (-1))) ∧
  (∀ (i : Instr) (s : State), pops i = true → i.wellFormed = true → s.sp = 256 →
    exec i s = .next (afterOutOfRange s .memory 256))

/-- spec/60_exceptions.md R205: a step that faults has written `run` and the fault record and nothing else. -/
def Obligations.FaultsArePrecise : Prop :=
  ∀ (eager : Bool) (s t : State), stepWith eager s = .next t → t.run = .faulted →
    t = { s with run := .faulted, fault := t.fault } ∧ t.fault.pc = s.pc ∧ t.fault.cause ≠ .none

/-- spec/10_state.md R40. That a step attempted in HALTED or FAULTED answers a named fault is the model's choice
(notes/assumptions/5.md); the statement says only that there is no next state. -/
def Obligations.OnlyRunningTakesSteps : Prop :=
  RunState.running.code = 0 ∧ RunState.halted.code = 1 ∧ RunState.faulted.code = 2 ∧
  (∀ (eager : Bool) (s : State), s.run = .running → ∃ t, stepWith eager s = .next t) ∧
  (∀ (eager : Bool) (s t : State), s.run ≠ .running → stepWith eager s ≠ .next t) ∧
  (∀ image d (s : State), resetWith image d = .ok s → s.run = .running)

/-- spec/40_fetch_decode_execute.md R99: a run leaves RUNNING by `HALT` or by a fault, and only so. -/
def Obligations.RunEndsByHaltOrFault : Prop :=
  ∀ (eager : Bool) (s t : State), stepWith eager s = .next t →
    (t.run = .running ∧ t.fault = s.fault) ∨
    (t.run = .halted ∧ s.mem.read s.pc = 0x01#8 ∧ t = { s with run := .halted, pc := s.pc + 1 }) ∨
    (t.run = .faulted ∧ t.fault.cause = .illegalInstruction ∧ s.mem.read s.pc ∉ legalOpcodes) ∨
    (t.run = .faulted ∧ t.fault.cause = .outOfRange)

/-- spec/10_state.md R41: the record is written only on entry to FAULTED, nothing shows it before, and no step
depends on it. -/
def Obligations.FaultRecordIsUnobservableWhileRunning : Prop :=
  (∀ image d (s : State), resetWith image d = .ok s → s.fault.cause = .none) ∧
  (∀ (eager : Bool) (s t : State), stepWith eager s = .next t → t.run ≠ .faulted → t.fault = s.fault) ∧
  (∀ (s : State) f, s.run ≠ .faulted → observe { s with fault := f } = observe s) ∧
  (∀ (eager : Bool) (s : State) f (t : State), stepWith eager s = .next t → ∃ t', stepWith eager { s with fault := f } = .next t' ∧
    observe t' = observe t ∧ { t' with fault := t.fault } = t)

/-- spec/10_state.md R42: `out` is empty at reset, oldest first, and only `PRINT` appends to it. -/
def Obligations.OnlyPrintAppendsToTheOutput : Prop :=
  (∀ image d (s : State), resetWith image d = .ok s → s.out = []) ∧
  (∀ (eager : Bool) (s t : State), stepWith eager s = .next t →
    t.out = s.out ∨
    ∃ r : Reg, s.mem.read s.pc = 0x47#8 ∧ s.mem.read (s.pc + 1) = BitVec.ofNat 8 r.val ∧
      t.out = s.out ++ [s.x[r.val]])

/-- spec/70_reset_and_hazards.md R241 and spec/20_memory.md R63: the only stores are the stack writes of `PUSH`
and `CALL`, and the very next fetch of the address sees the byte. -/
def Obligations.OnlyPushAndCallStore : Prop :=
  (∀ (eager : Bool) (s t : State) a, stepWith eager s = .next t → t.mem.read a ≠ s.mem.read a →
    (s.mem.read s.pc = 0x45#8 ∨ s.mem.read s.pc = 0x50#8) ∧ a + 1 = s.sp ∧ t.sp = a) ∧
  (∀ (i : Instr) (s t : State), pushes i = true → s.run = .running → 1 ≤ s.sp → s.sp ≤ 254 →
    exec i s = .next t → Safe t →
    ∀ u : State, u = { t with pc := s.sp - 1 } →
      (u.mem.read u.pc ∉ legalOpcodes → step u = .next (afterIllegalInstruction u (u.mem.read u.pc))) ∧
      (u.mem.read u.pc ∈ legalOpcodes → ∃ j rest, decode u.codeBytes = .ok (j, rest) ∧
        j.opcode = u.mem.read u.pc ∧ step u = exec j u))

/-- spec/44_jumps.md R180 and spec/40_fetch_decode_execute.md R100: a jump to its own address runs forever. -/
def Obligations.JumpToItselfRunsForever : Prop :=
  ∀ (s : State) (r : Reg), s.run = .running → s.pc ≤ 253 → s.mem.read s.pc = 0x54#8 →
    s.mem.read (s.pc + 1) = BitVec.ofNat 8 r.val → s.x[r.val].toNat = s.pc →
    ∀ n, runSteps n s = .next s

/-! ### The stack over several instructions -/

/-- spec/43_stack_and_subroutine.md R150, R152: what is pushed is popped, and `sp` is back. -/
def Obligations.PushThenPopRoundTrips : Prop :=
  ∀ (r r' : Byte) (s : State) (h : r.toNat < 8) (h' : r'.toNat < 8), 1 ≤ s.sp → s.sp ≤ 256 →
    ∃ t u, exec (.push r) s = .next t ∧ exec (.pop r') t = .next u ∧
      u.x = s.x.set r'.toNat (s.x[r.toNat]'h) h' ∧ u.sp = s.sp ∧ u.fl = s.fl ∧ u.run = s.run

/-- spec/43_stack_and_subroutine.md R154, R156: `RETURN` after `CALL` resumes behind the `CALL`'s operand, with
no general register changed; after `PUSH(r)` it jumps to the pushed value. -/
def Obligations.ReturnResumesAfterTheCall : Prop :=
  (∀ (r : Byte) (s : State), r.toNat < 8 → 1 ≤ s.sp → s.sp ≤ 256 → s.pc ≤ 253 →
    ∃ t u, exec (.call r) s = .next t ∧ exec .ret t = .next u ∧
      u.pc = s.pc + 2 ∧ u.sp = s.sp ∧ u.x = s.x ∧ u.fl = s.fl ∧ u.out = s.out) ∧
  (∀ (r : Byte) (s : State) (h : r.toNat < 8), 1 ≤ s.sp → s.sp ≤ 256 →
    ∃ t u, exec (.push r) s = .next t ∧ exec .ret t = .next u ∧
      u.pc = (s.x[r.toNat]'h).toNat ∧ u.sp = s.sp)

/-- spec/43_stack_and_subroutine.md R159: from reset, for every image and every draw. Each push writes what R150 or
R154 has it push, at the next address down. -/
def Obligations.StackHoldsTwoHundredFortyFour : Prop :=
  ∀ image d (s : State) (is : List Instr), resetWith image d = .ok s →
    (∀ i ∈ is, pushes i = true ∧ i.wellFormed = true) → is.length = 244 →
    ∃ t, execAll is s = .next t ∧ t.sp = 0 ∧ t.run = .running ∧
      (∀ k, k < 244 → ∃ u w, execAll (is.take k) s = .next u ∧ execAll (is.take (k + 1)) s = .next w ∧
        w.sp = 0xF3 - k ∧
        (∀ (r : Byte) (h : r.toNat < 8), is[k]? = some (.push r) → w.mem.read (0xF3 - k) = u.x[r.toNat]'h) ∧
        (∀ r : Byte, is[k]? = some (.call r) → (w.mem.read (0xF3 - k)).toNat = (u.pc + 2) % 256) ∧
        ∀ a, a ≠ 0xF3 - k → w.mem.read a = u.mem.read a) ∧
      ∀ j, pushes j = true → j.wellFormed = true → exec j t = .next (afterOutOfRange t .memory (-1))

/-! ### The invariant and reset -/

/-- The invariant is kept by every step, under either setting of EAGER_OPERAND_CHECK. (That the fault record keeps
its reset value until FAULTED is the model's choice, notes/assumptions/4.md.) -/
def Obligations.EveryStepKeepsTheInvariant : Prop :=
  (∀ (s t : State), Inv s → step s = .next t → Inv t) ∧
  (∀ (eager : Bool) (s t : State), Inv s → stepWith eager s = .next t → Inv t)

/-- The invariant holds at `State.reset` (whose draws and unset fields are the model's choice,
notes/assumptions/1.md to 4.md). -/
def Obligations.ResetMeetsTheInvariant : Prop := Inv State.reset

/-- The invariant holds after the reset of every accepted image with every draw (the fault record's unset fields
are the model's choice, notes/assumptions/4.md). -/
def Obligations.EveryResetMeetsTheInvariant : Prop :=
  ∀ image d (s : State), resetWith image d = .ok s → Inv s

/-- spec/70_reset_and_hazards.md R230. The values of `fault`'s fields other than the cause are the model's choice
(notes/assumptions/4.md) and are not stated. -/
def Obligations.ResetSetsEveryField : Prop :=
  ∀ (image : List Nat) (d : Draws), image.length ≤ 256 → (∀ v ∈ image, v ≤ 255) →
    ∃ s, resetWith image d = .ok s ∧
      (∀ (n : Nat) (h : n < image.length), (s.mem.read n).toNat = image[n]) ∧
      (∀ (n : Nat) (h : n < 256), image.length ≤ n → s.mem.read n = d.memInit[n]) ∧
      (∀ (k : Nat) (h : k < 7), s.x[k] = d.regInit[k]) ∧
      s.x[7] = 0xF4#8 ∧ s.sp = 0xF4 ∧ s.pc = 0 ∧ s.fl = d.flInit ∧ s.run = .running ∧
      s.fault.cause = .none ∧ s.out = []

/-- spec/70_reset_and_hazards.md R233: an image the memory cannot hold is refused, and a load error starts no
run. (How a line is trimmed, `lineToken`, is the model's choice, notes/assumptions/7.md.) -/
def Obligations.BadImagesAreRefused : Prop :=
  (∀ image d, 256 < image.length → ∃ e, resetWith image d = .error e) ∧
  (∀ (image : List Nat) d v, v ∈ image → 255 < v → ∃ e, resetWith image d = .error e) ∧
  (∀ d, start none d = .error .unreadableFile) ∧
  (∀ text line d, line ∈ fileLines text → lineToken line ≠ [] → binaryValue 0 (lineToken line) = none →
    ∃ e, start (some text) d = .error e) ∧
  (∀ text d e, loadFile (some text) = .error e → start (some text) d = .error e)

/-- `State.reset` is the reset with no image and the draws the log names (DESIGN CHOICE:
notes/assumptions/1.md, 2.md, 3.md). -/
def Obligations.NamedResetIsAReset : Prop := resetWith [] Draws.named = .ok State.reset

/-! ### Memory, encoding, interface -/

/-- Two memories in the canonical form that read alike are equal (the form, and what an unlisted cell reads as, are
the model's choice, notes/assumptions/3.md). -/
def Obligations.EqualMemoriesAreEqualData : Prop :=
  ∀ m m' : Memory, m.wf = true → m'.wf = true → (∀ a, a < 256 → m.read a = m'.read a) → m = m'

/-- Decode and encode agree, both ways: for every instruction with every operand byte, and for no other bytes. -/
def Obligations.DecodeInvertsEncode : Prop :=
  ∀ bytes (i : Instr) (rest : List Byte), decode bytes = .ok (i, rest) ↔ bytes = encode i ++ rest

/-- spec/30_encoding.md R78 and spec/60_exceptions.md R203: every opcode byte outside the table, and no other, is
illegal, and fetching one writes `run` and the fault record and nothing else. -/
def Obligations.IllegalOpcodesAreExactlyTheOthers : Prop :=
  (∀ op (rest : List Byte), decode (op :: rest) = .error (.illegalOpcode op) ↔ op ∉ legalOpcodes) ∧
  legalOpcodes.length = 13 ∧ legalOpcodes.Nodup ∧
  (∀ (eager : Bool) (s : State), s.run = .running → s.pc ≤ 255 → (eager = true → s.pc ≤ 253) →
    s.mem.read s.pc ∉ legalOpcodes →
    stepWith eager s = .next { s with
      run := .faulted
      fault := ⟨.illegalInstruction, s.pc, .none, ((s.mem.read s.pc).toNat : Int)⟩ })

/-- A few words written out from spec/30_encoding.md R76, one for each format and family. -/
def Obligations.KnownWordsDecode : Prop :=
  decode [0b00000001#8] = .ok (.halt, []) ∧
  decode [0b10000010#8, 0b00000000#8, 0b00001000#8] = .ok (.loadImmediate 0 8, []) ∧
  decode [0b10100000#8, 0b00000000#8, 0b00000001#8] = .ok (.add 0 1, []) ∧
  decode [0b01010000#8, 0b00000001#8] = .ok (.call 1, []) ∧
  decode [0b01010110#8, 0b00000011#8] = .ok (.jumpIfNotEqual 3, [])

/-- spec/30_encoding.md R85, R86: the file that gives each byte as its 8 binary digits, with any comment behind
it, loads as those bytes. (The loader is outside the block, and its trimming is the model's choice,
notes/assumptions/7.md.) -/
def Obligations.ProgramFileRoundTrips : Prop :=
  ∀ lines : List (Byte × List Char), (∀ l ∈ lines, '\n' ∉ l.2) →
    loadFile (some (lines.flatMap fun l => binaryLine l.1 ++ ' ' :: '#' :: l.2 ++ ['\n'])) =
      .ok (lines.map fun l => l.1.toNat)

/-- The exit statuses of spec/60_exceptions.md R216. That every load error, whatever its kind, gives the one code
EXIT_LOAD_ERROR is the model's inference (DEDUCED, notes/assumptions/9.md). -/
def Obligations.ExitStatusTellsTheEnd : Prop :=
  ∀ p (s : State), Config.HostParams.Legal p →
    (s.run = .running → exitStatus p s = none) ∧
    (s.run = .halted → exitStatus p s = some 0) ∧
    (s.run = .faulted → s.fault.cause = .illegalInstruction → exitStatus p s = some p.exitIllegal ∧
      p.exitIllegal ≠ 0 ∧ ∀ e, loadErrorStatus p e ≠ p.exitIllegal ∧ loadErrorStatus p e ≠ 0) ∧
    (s.run = .faulted → s.fault.cause = .outOfRange → exitStatus p s = some p.exitOutOfRange)
end

