-- ==== Sys2Proof/Laws/Decode.lean ====
section
/-! SUPPORT. The opcode table read once: the row of each instruction's opcode, and no row for any other byte. -/

namespace Sys2Proof

/-- The table's row for an instruction's opcode. -/
def Instr.row : Instr → Row
  | .halt => .f0 .halt
  | .loadImmediate _ _ => .f2ri .loadImmediate
  | .print _ => .f1r .print
  | .add _ _ => .f2rr .add
  | .mul _ _ => .f2rr .mul
  | .cmp _ _ => .f2rr .cmp
  | .push _ => .f1r .push
  | .pop _ => .f1r .pop
  | .call _ => .f1r .call
  | .ret => .f0 .ret
  | .jump _ => .f1r .jump
  | .jumpIfEqual _ => .f1r .jumpIfEqual
  | .jumpIfNotEqual _ => .f1r .jumpIfNotEqual

theorem rowOf_opcode (i : Instr) : rowOf i.opcode = some i.row := by
  cases i <;> rfl

/-- One instruction of each kind, in the order of spec/30_encoding.md R76; the operands are arbitrary. -/
def oneOfEach : List Instr :=
  [.halt, .loadImmediate 0 0, .print 0, .add 0 0, .mul 0 0, .cmp 0 0, .push 0, .pop 0, .call 0, .ret, .jump 0,
    .jumpIfEqual 0, .jumpIfNotEqual 0]

/-- The table pairs the opcode of each kind with its row. -/
theorem opcodeTable_eq_map : opcodeTable = oneOfEach.map fun i => (i.opcode, i.row) := rfl

/-- What a lookup finds in a table made from instructions was put there by one of them. -/
theorem exists_of_lookup_map {op : Byte} {row : Row} {is : List Instr}
    (h : (is.map fun i => (i.opcode, i.row)).lookup op = some row) : ∃ i ∈ is, i.opcode = op ∧ i.row = row := by
  induction is with
  | nil => cases h
  | cons j is ih =>
    rw [List.map_cons, List.lookup_cons] at h
    split at h
    next hop => exact ⟨j, List.mem_cons_self, (eq_of_beq hop).symm, Option.some.inj h⟩
    next =>
      obtain ⟨i, hi, hrow⟩ := ih h
      exact ⟨i, List.mem_cons_of_mem _ hi, hrow⟩

/-- Every row that the table gives is the row of an instruction with that opcode, whatever its operands. -/
theorem exists_instr_of_rowOf {op : Byte} {row : Row} (h : rowOf op = some row) :
    ∃ i : Instr, i.opcode = op ∧ i.row = row := by
  rw [rowOf, opcodeTable_eq_map] at h
  obtain ⟨i, _, hrow⟩ := exists_of_lookup_map h
  exact ⟨i, hrow⟩

/-- No two rows of the table have one opcode (spec/30_encoding.md R75). -/
theorem opcodeTable_nodup : (opcodeTable.map Prod.fst).Nodup := by decide

/-- The table has exactly the 13 opcodes. -/
theorem opcodeTable_length : opcodeTable.length = 13 := rfl

end Sys2Proof
end

