-- ==== Sys2Proof/Laws/Memory.lean ====
section
/-! SUPPORT. Memory: a read after a write, the canonical form kept by every operation, and what memory made from
bytes reads as. -/

namespace Sys2Proof.Machine.Memory

@[simp] theorem read_nil (a : Nat) : read [] a = Config.unlistedByte := rfl

theorem read_cons (c : Host.Cell) (m : Memory) (a : Nat) :
    read (c :: m) a = if a = c.1 then c.2 else read m a := by
  obtain ⟨k, v⟩ := c
  unfold read
  by_cases h : a = k
  · simp [h]
  · have hk : (a == k) = false := by simpa using h
    simp [List.lookup_cons, h, hk]

theorem read_erase (m : Memory) (a b : Nat) :
    (m.erase a).read b = if b = a then Config.unlistedByte else m.read b := by
  induction m with
  | nil => simp [erase]
  | cons c m ih =>
    unfold erase at ih ⊢
    by_cases h : c.1 = a
    · rw [List.filter_cons_of_neg (by simpa using h), ih, read_cons]
      split
      · rfl
      · rw [if_neg (by omega)]
    · rw [List.filter_cons_of_pos (by simpa using h), read_cons, ih, read_cons]
      by_cases hb : b = a
      · rw [if_neg (by omega), if_pos hb, if_pos hb]
      · rw [if_neg hb, if_neg hb]

theorem read_insert (m : Memory) (a b : Nat) (v : Byte) (h : m.read a = Config.unlistedByte)
    (ha : ∀ c ∈ m, c.1 ≠ a) : (m.insert a v).read b = if b = a then v else m.read b := by
  induction m with
  | nil => simp [insert, read_cons]
  | cons c m ih =>
    have hc : c.1 ≠ a := ha c (by simp)
    unfold insert
    split
    · rw [read_cons]
    · rw [read_cons] at h
      rw [read_cons, ih (by rwa [if_neg (by omega)] at h) (fun d hd => ha d (by simp [hd])), read_cons]
      by_cases hb : b = a
      · rw [if_neg (by omega), if_pos hb, if_pos hb]
      · rw [if_neg hb, if_neg hb]

/-- A read after a write: the value written at the address, what was there everywhere else. -/
theorem read_write (m : Memory) (a b : Nat) (v : Byte) :
    (m.write a v).read b = if b = a then v else m.read b := by
  unfold write
  split
  · rename_i h; rw [read_erase, h]
  · rw [read_insert _ _ _ _ (by simp [read_erase]) (by simp [erase]), read_erase]
    split <;> rfl

theorem read_write_same (m : Memory) (a : Nat) (v : Byte) : (m.write a v).read a = v := by
  simp [read_write]

theorem read_write_other (m : Memory) (a b : Nat) (v : Byte) (h : b ≠ a) :
    (m.write a v).read b = m.read b := by
  simp [read_write, h]

theorem wfFrom_cons (lo : Nat) (c : Host.Cell) (m : Memory) :
    wfFrom lo (c :: m) = true ↔
      lo ≤ c.1 ∧ c.1 < 256 ∧ c.2 ≠ Config.unlistedByte ∧ wfFrom (c.1 + 1) m = true := by
  simp [wfFrom, and_assoc]

theorem wfFrom_mono {lo lo' : Nat} {m : Memory} (h : wfFrom lo m = true) (hl : lo' ≤ lo) :
    wfFrom lo' m = true := by
  cases m with
  | nil => rfl
  | cons c m => rw [wfFrom_cons] at h ⊢; exact ⟨by omega, h.2⟩

theorem wfFrom_erase {lo : Nat} {m : Memory} (a : Nat) (h : wfFrom lo m = true) :
    wfFrom lo (m.erase a) = true := by
  induction m generalizing lo with
  | nil => rfl
  | cons c m ih =>
    rw [wfFrom_cons] at h
    unfold erase at ih ⊢
    by_cases hc : c.1 = a
    · rw [List.filter_cons_of_neg (by simpa using hc)]
      exact wfFrom_mono (ih h.2.2.2) (by omega)
    · rw [List.filter_cons_of_pos (by simpa using hc), wfFrom_cons]
      exact ⟨h.1, h.2.1, h.2.2.1, ih h.2.2.2⟩

theorem wfFrom_insert {lo : Nat} {m : Memory} {a : Nat} {v : Byte} (h : wfFrom lo m = true)
    (hl : lo ≤ a) (ha : a < 256) (hv : v ≠ Config.unlistedByte) (hm : ∀ c ∈ m, c.1 ≠ a) :
    wfFrom lo (m.insert a v) = true := by
  induction m generalizing lo with
  | nil => rw [insert, wfFrom_cons]; exact ⟨hl, ha, hv, rfl⟩
  | cons c m ih =>
    have hc : c.1 ≠ a := hm c (by simp)
    unfold insert
    split
    · rw [wfFrom_cons] at h
      rw [wfFrom_cons, wfFrom_cons]
      exact ⟨hl, ha, hv, by simp only; omega, h.2⟩
    · rw [wfFrom_cons] at h ⊢
      exact ⟨h.1, h.2.1, h.2.2.1, ih h.2.2.2 (by omega) (fun d hd => hm d (by simp [hd]))⟩

/-- A write inside the address space keeps the canonical form. -/
theorem wf_write {m : Memory} {a : Nat} (v : Byte) (h : m.wf = true) (ha : a < 256) :
    (m.write a v).wf = true := by
  unfold write wf
  split
  · exact wfFrom_erase a h
  · exact wfFrom_insert (wfFrom_erase a h) (by omega) ha (by assumption) (by simp [erase])

/-- Storing an instruction's bytes keeps the canonical form. -/
theorem wf_writeBytes {m : Memory} (a : Nat) (bs : List Byte) (h : m.wf = true) :
    (m.writeBytes a bs).wf = true := by
  induction bs generalizing m a with
  | nil => exact h
  | cons v bs ih =>
    unfold writeBytes
    apply ih
    split
    · exact wf_write v h (by assumption)
    · exact h

theorem read_writeBytes_below (m : Memory) (a b : Nat) (bs : List Byte) (h : b < a) :
    (m.writeBytes a bs).read b = m.read b := by
  induction bs generalizing m a with
  | nil => rfl
  | cons v bs ih =>
    unfold writeBytes
    rw [ih _ _ (by omega)]
    split
    · exact read_write_other _ _ _ _ (by omega)
    · rfl

/-- Memory made from bytes is canonical when they fit. -/
theorem wfFrom_ofBytes (a : Nat) (bs : List Byte) (h : a + bs.length ≤ 256) :
    wfFrom a (ofBytes a bs) = true := by
  induction bs generalizing a with
  | nil => rfl
  | cons v bs ih =>
    have := ih (a + 1) (by simp only [List.length_cons] at h; omega)
    unfold ofBytes
    split
    · exact wfFrom_mono this (by omega)
    · rw [wfFrom_cons]
      exact ⟨le_refl _, by simp only [List.length_cons] at h; simp only; omega, by assumption, this⟩

theorem read_ofBytes_below (a b : Nat) (bs : List Byte) (h : b < a) :
    (ofBytes a bs).read b = Config.unlistedByte := by
  induction bs generalizing a with
  | nil => rfl
  | cons v bs ih =>
    unfold ofBytes
    split
    · exact ih (a + 1) (by omega)
    · rw [read_cons, if_neg (by simp only; omega)]
      exact ih (a + 1) (by omega)

/-- Memory made from bytes reads as those bytes. -/
theorem read_ofBytes (a n : Nat) (bs : List Byte) (h : n < bs.length) :
    (ofBytes a bs).read (a + n) = bs[n] := by
  induction bs generalizing a n with
  | nil => simp at h
  | cons v bs ih =>
    unfold ofBytes
    cases n with
    | zero =>
      split
      · rename_i hv; rw [read_ofBytes_below _ _ _ (by omega)]; simpa using hv.symm
      · simp [read_cons]
    | succ n =>
      have := ih (a + 1) n (by simpa using h)
      rw [show a + 1 + n = a + (n + 1) by omega] at this
      split
      · rw [this]; rfl
      · rw [read_cons, if_neg (by simp only; omega), this]; rfl

end Sys2Proof.Machine.Memory
end

