-- ==== Sys2Proof/Laws/State.lean ====
section
/-! SUPPORT. One lemma for each field of State after each named update, true by rfl; what a register read gives
after a register write; and what a FAULTED state of the statements is. -/

namespace Sys2Proof.Machine

@[simp] theorem State.setReg_x (s : State) (i : Reg) (v : Byte) : (s.setReg i v).x = s.x.set i.val v := rfl
@[simp] theorem State.setReg_pc (s : State) (i : Reg) (v : Byte) : (s.setReg i v).pc = s.pc := rfl
@[simp] theorem State.setReg_sp (s : State) (i : Reg) (v : Byte) : (s.setReg i v).sp = s.sp := rfl
@[simp] theorem State.setReg_fl (s : State) (i : Reg) (v : Byte) : (s.setReg i v).fl = s.fl := rfl
@[simp] theorem State.setReg_mem (s : State) (i : Reg) (v : Byte) : (s.setReg i v).mem = s.mem := rfl
@[simp] theorem State.setReg_run (s : State) (i : Reg) (v : Byte) : (s.setReg i v).run = s.run := rfl
@[simp] theorem State.setReg_fault (s : State) (i : Reg) (v : Byte) : (s.setReg i v).fault = s.fault := rfl
@[simp] theorem State.setReg_out (s : State) (i : Reg) (v : Byte) : (s.setReg i v).out = s.out := rfl

@[simp] theorem State.setPc_x (s : State) (a : Nat) : (s.setPc a).x = s.x := rfl
@[simp] theorem State.setPc_pc (s : State) (a : Nat) : (s.setPc a).pc = a := rfl
@[simp] theorem State.setPc_sp (s : State) (a : Nat) : (s.setPc a).sp = s.sp := rfl
@[simp] theorem State.setPc_fl (s : State) (a : Nat) : (s.setPc a).fl = s.fl := rfl
@[simp] theorem State.setPc_mem (s : State) (a : Nat) : (s.setPc a).mem = s.mem := rfl
@[simp] theorem State.setPc_run (s : State) (a : Nat) : (s.setPc a).run = s.run := rfl
@[simp] theorem State.setPc_fault (s : State) (a : Nat) : (s.setPc a).fault = s.fault := rfl
@[simp] theorem State.setPc_out (s : State) (a : Nat) : (s.setPc a).out = s.out := rfl

@[simp] theorem State.advance_x (s : State) (n : Nat) : (s.advance n).x = s.x := rfl
@[simp] theorem State.advance_pc (s : State) (n : Nat) : (s.advance n).pc = s.pc + n := rfl
@[simp] theorem State.advance_sp (s : State) (n : Nat) : (s.advance n).sp = s.sp := rfl
@[simp] theorem State.advance_fl (s : State) (n : Nat) : (s.advance n).fl = s.fl := rfl
@[simp] theorem State.advance_mem (s : State) (n : Nat) : (s.advance n).mem = s.mem := rfl
@[simp] theorem State.advance_run (s : State) (n : Nat) : (s.advance n).run = s.run := rfl
@[simp] theorem State.advance_fault (s : State) (n : Nat) : (s.advance n).fault = s.fault := rfl
@[simp] theorem State.advance_out (s : State) (n : Nat) : (s.advance n).out = s.out := rfl

@[simp] theorem State.setSp_x (s : State) (a : Nat) : (s.setSp a).x = s.x := rfl
@[simp] theorem State.setSp_pc (s : State) (a : Nat) : (s.setSp a).pc = s.pc := rfl
@[simp] theorem State.setSp_sp (s : State) (a : Nat) : (s.setSp a).sp = a := rfl
@[simp] theorem State.setSp_fl (s : State) (a : Nat) : (s.setSp a).fl = s.fl := rfl
@[simp] theorem State.setSp_mem (s : State) (a : Nat) : (s.setSp a).mem = s.mem := rfl
@[simp] theorem State.setSp_run (s : State) (a : Nat) : (s.setSp a).run = s.run := rfl
@[simp] theorem State.setSp_fault (s : State) (a : Nat) : (s.setSp a).fault = s.fault := rfl
@[simp] theorem State.setSp_out (s : State) (a : Nat) : (s.setSp a).out = s.out := rfl

@[simp] theorem State.setFl_x (s : State) (v : Byte) : (s.setFl v).x = s.x := rfl
@[simp] theorem State.setFl_pc (s : State) (v : Byte) : (s.setFl v).pc = s.pc := rfl
@[simp] theorem State.setFl_sp (s : State) (v : Byte) : (s.setFl v).sp = s.sp := rfl
@[simp] theorem State.setFl_fl (s : State) (v : Byte) : (s.setFl v).fl = v := rfl
@[simp] theorem State.setFl_mem (s : State) (v : Byte) : (s.setFl v).mem = s.mem := rfl
@[simp] theorem State.setFl_run (s : State) (v : Byte) : (s.setFl v).run = s.run := rfl
@[simp] theorem State.setFl_fault (s : State) (v : Byte) : (s.setFl v).fault = s.fault := rfl
@[simp] theorem State.setFl_out (s : State) (v : Byte) : (s.setFl v).out = s.out := rfl

@[simp] theorem State.store_x (s : State) (a v : Nat) : (s.store a v).x = s.x := rfl
@[simp] theorem State.store_pc (s : State) (a v : Nat) : (s.store a v).pc = s.pc := rfl
@[simp] theorem State.store_sp (s : State) (a v : Nat) : (s.store a v).sp = s.sp := rfl
@[simp] theorem State.store_fl (s : State) (a v : Nat) : (s.store a v).fl = s.fl := rfl
@[simp] theorem State.store_mem (s : State) (a v : Nat) : (s.store a v).mem = s.mem.write a (BitVec.ofNat 8 v) := rfl
@[simp] theorem State.store_run (s : State) (a v : Nat) : (s.store a v).run = s.run := rfl
@[simp] theorem State.store_fault (s : State) (a v : Nat) : (s.store a v).fault = s.fault := rfl
@[simp] theorem State.store_out (s : State) (a v : Nat) : (s.store a v).out = s.out := rfl

@[simp] theorem State.emit_x (s : State) (v : Byte) : (s.emit v).x = s.x := rfl
@[simp] theorem State.emit_pc (s : State) (v : Byte) : (s.emit v).pc = s.pc := rfl
@[simp] theorem State.emit_sp (s : State) (v : Byte) : (s.emit v).sp = s.sp := rfl
@[simp] theorem State.emit_fl (s : State) (v : Byte) : (s.emit v).fl = s.fl := rfl
@[simp] theorem State.emit_mem (s : State) (v : Byte) : (s.emit v).mem = s.mem := rfl
@[simp] theorem State.emit_run (s : State) (v : Byte) : (s.emit v).run = s.run := rfl
@[simp] theorem State.emit_fault (s : State) (v : Byte) : (s.emit v).fault = s.fault := rfl
@[simp] theorem State.emit_out (s : State) (v : Byte) : (s.emit v).out = s.out ++ [v] := rfl

@[simp] theorem State.halt_x (s : State) : (s.halt).x = s.x := rfl
@[simp] theorem State.halt_pc (s : State) : (s.halt).pc = s.pc := rfl
@[simp] theorem State.halt_sp (s : State) : (s.halt).sp = s.sp := rfl
@[simp] theorem State.halt_fl (s : State) : (s.halt).fl = s.fl := rfl
@[simp] theorem State.halt_mem (s : State) : (s.halt).mem = s.mem := rfl
@[simp] theorem State.halt_run (s : State) : (s.halt).run = .halted := rfl
@[simp] theorem State.halt_fault (s : State) : (s.halt).fault = s.fault := rfl
@[simp] theorem State.halt_out (s : State) : (s.halt).out = s.out := rfl

@[simp] theorem State.raise_x (s : State) (c : Cause) (p : Space) (v : Int) : (s.raise c p v).x = s.x := rfl
@[simp] theorem State.raise_pc (s : State) (c : Cause) (p : Space) (v : Int) : (s.raise c p v).pc = s.pc := rfl
@[simp] theorem State.raise_sp (s : State) (c : Cause) (p : Space) (v : Int) : (s.raise c p v).sp = s.sp := rfl
@[simp] theorem State.raise_fl (s : State) (c : Cause) (p : Space) (v : Int) : (s.raise c p v).fl = s.fl := rfl
@[simp] theorem State.raise_mem (s : State) (c : Cause) (p : Space) (v : Int) : (s.raise c p v).mem = s.mem := rfl
@[simp] theorem State.raise_run (s : State) (c : Cause) (p : Space) (v : Int) : (s.raise c p v).run = .faulted := rfl
@[simp] theorem State.raise_fault (s : State) (c : Cause) (p : Space) (v : Int) : (s.raise c p v).fault = ⟨c, s.pc, p, v⟩ := rfl
@[simp] theorem State.raise_out (s : State) (c : Cause) (p : Space) (v : Int) : (s.raise c p v).out = s.out := rfl

theorem State.reg_setReg (s : State) (i k : Reg) (v : Byte) :
    (s.setReg i v).reg k = if i = k then v else s.reg k := by
  simp only [State.reg, State.setReg_x, Vector.getElem_set, Fin.ext_iff]

theorem State.raise_outOfRange (s : State) (p : Space) (v : Int) :
    s.raise .outOfRange p v = afterOutOfRange s p v := rfl

theorem State.raise_illegalInstruction (s : State) (op : Byte) :
    s.raise .illegalInstruction .none (op.toNat : Int) = afterIllegalInstruction s op := rfl

/-- ADD and MUL write the destination only; CMP writes the flags only. -/
theorem State.writeAlu_add (s : State) (a : Reg) (u v : Byte) :
    s.writeAlu a (alu .add u v) = s.setReg a (BitVec.ofNat 8 ((u.toNat + v.toNat) % 256)) := rfl

theorem State.writeAlu_mul (s : State) (a : Reg) (u v : Byte) :
    s.writeAlu a (alu .mul u v) = s.setReg a (BitVec.ofNat 8 ((u.toNat * v.toNat) % 256)) := rfl

theorem State.writeAlu_cmp (s : State) (a : Reg) (u v : Byte) :
    s.writeAlu a (alu .cmp u v) = s.setFl (compareFlags u v) := rfl

end Sys2Proof.Machine
end

