-- ==== Sys2Proof/Laws/Ops.lean ====
section
/-! SUPPORT. What each shared operation does, said once: equations for the check that passes and the check that
fails, and for each operation the two cases together. -/

namespace Sys2Proof.Machine

theorem addrCheck_ok {a : Nat} (s : State) (k : Nat → Result) (h : a ≤ 255) :
    addrCheck (a : Int) s k = k a := by
  unfold addrCheck
  rw [if_neg (by omega)]
  simp

theorem addrCheck_bad {a : Int} (s : State) (k : Nat → Result) (h : a < 0 ∨ 255 < a) :
    addrCheck a s k = .next (s.raise .outOfRange .memory a) := by
  unfold addrCheck
  rw [if_pos h]; rfl

theorem addrCheck_cases (a : Int) (s : State) (k : Nat → Result) :
    (∃ n : Nat, a = (n : Int) ∧ n ≤ 255 ∧ addrCheck a s k = k n) ∨
    ((a < 0 ∨ 255 < a) ∧ addrCheck a s k = .next (s.raise .outOfRange .memory a)) := by
  by_cases h : a < 0 ∨ 255 < a
  · exact .inr ⟨h, addrCheck_bad s k h⟩
  · obtain ⟨n, rfl⟩ := Int.eq_ofNat_of_zero_le (show 0 ≤ a by omega)
    exact .inl ⟨n, rfl, by omega, addrCheck_ok s k (by omega)⟩

theorem regCheck_ok {i : Byte} (s : State) (k : Reg → Result) (h : i.toNat < 8) :
    regCheck i s k = k ⟨i.toNat, h⟩ := by
  unfold regCheck
  rw [dif_pos h]

theorem regCheck_bad {i : Byte} (s : State) (k : Reg → Result) (h : 8 ≤ i.toNat) :
    regCheck i s k = .next (s.raise .outOfRange .register (i.toNat : Int)) := by
  unfold regCheck
  rw [dif_neg (by omega)]; rfl

theorem regCheck_cases (i : Byte) (s : State) (k : Reg → Result) :
    (∃ h : i.toNat < 8, regCheck i s k = k ⟨i.toNat, h⟩) ∨
    (8 ≤ i.toNat ∧ regCheck i s k = .next (s.raise .outOfRange .register (i.toNat : Int))) := by
  by_cases h : i.toNat < 8
  · exact .inl ⟨h, regCheck_ok s k h⟩
  · exact .inr ⟨by omega, regCheck_bad s k (by omega)⟩

theorem regPair_ok {a b : Byte} (s : State) (k : Reg → Reg → Result) (ha : a.toNat < 8) (hb : b.toNat < 8) :
    regPair a b s k = k ⟨a.toNat, ha⟩ ⟨b.toNat, hb⟩ := by
  unfold regPair
  rw [regCheck_ok _ _ ha, regCheck_ok _ _ hb]

theorem regPair_bad_first {a b : Byte} (s : State) (k : Reg → Reg → Result) (ha : 8 ≤ a.toNat) :
    regPair a b s k = .next (s.raise .outOfRange .register (a.toNat : Int)) := by
  unfold regPair
  rw [regCheck_bad _ _ ha]

theorem regPair_bad_second {a b : Byte} (s : State) (k : Reg → Reg → Result) (ha : a.toNat < 8)
    (hb : 8 ≤ b.toNat) : regPair a b s k = .next (s.raise .outOfRange .register (b.toNat : Int)) := by
  unfold regPair
  rw [regCheck_ok _ _ ha, regCheck_bad _ _ hb]

theorem memRead_ok {a : Nat} (s : State) (k : Byte → Result) (h : a ≤ 255) :
    memRead (a : Int) s k = k (s.mem.read a) := addrCheck_ok s _ h

theorem memRead_bad {a : Int} (s : State) (k : Byte → Result) (h : a < 0 ∨ 255 < a) :
    memRead a s k = .next (s.raise .outOfRange .memory a) := addrCheck_bad s _ h

theorem push_ok (v : Nat) {s : State} (k : State → Result) (h : 1 ≤ s.sp) (h' : s.sp ≤ 256) :
    push v s k = k ((s.setSp (s.sp - 1)).store (s.sp - 1) v) := by
  unfold push
  rw [show (s.sp : Int) - 1 = ((s.sp - 1 : Nat) : Int) by omega, addrCheck_ok _ _ (by omega)]

theorem push_bad (v : Nat) {s : State} (k : State → Result) (h : s.sp = 0 ∨ 256 < s.sp) :
    push v s k = .next (s.raise .outOfRange .memory ((s.sp : Int) - 1)) :=
  addrCheck_bad s _ (by omega)

theorem pop_ok {s : State} (k : Byte → State → Result) (h : s.sp ≤ 255) :
    pop s k = k (s.mem.read s.sp) (s.setSp (s.sp + 1)) := memRead_ok s _ h

theorem pop_bad {s : State} (k : Byte → State → Result) (h : 255 < s.sp) :
    pop s k = .next (s.raise .outOfRange .memory (s.sp : Int)) := memRead_bad s _ (by omega)

/-- Every instruction of one register operand: it runs on the register, or it faults. -/
theorem regOperand_cases (r : Byte) (s : State) (k : Reg → Result) :
    (∃ h : r.toNat < 8, regOperand r s k = k ⟨r.toNat, h⟩) ∨
    (8 ≤ r.toNat ∧ regOperand r s k = .next (s.raise .outOfRange .register (r.toNat : Int))) :=
  regCheck_cases r s k

theorem regPair_cases (a b : Byte) (s : State) (k : Reg → Reg → Result) :
    (∃ (ha : a.toNat < 8) (hb : b.toNat < 8), regPair a b s k = k ⟨a.toNat, ha⟩ ⟨b.toNat, hb⟩) ∨
    (8 ≤ a.toNat ∧ regPair a b s k = .next (s.raise .outOfRange .register (a.toNat : Int))) ∨
    (a.toNat < 8 ∧ 8 ≤ b.toNat ∧ regPair a b s k = .next (s.raise .outOfRange .register (b.toNat : Int))) := by
  by_cases ha : a.toNat < 8
  · by_cases hb : b.toNat < 8
    · exact .inl ⟨ha, hb, regPair_ok s k ha hb⟩
    · exact .inr (.inr ⟨ha, by omega, regPair_bad_second s k ha (by omega)⟩)
  · exact .inr (.inl ⟨by omega, regPair_bad_first s k (by omega)⟩)

theorem push_cases (v : Nat) (s : State) (k : State → Result) :
    (1 ≤ s.sp ∧ s.sp ≤ 256 ∧ push v s k = k ((s.setSp (s.sp - 1)).store (s.sp - 1) v)) ∨
    ((s.sp = 0 ∨ 256 < s.sp) ∧ push v s k = .next (s.raise .outOfRange .memory ((s.sp : Int) - 1))) := by
  by_cases h : s.sp = 0 ∨ 256 < s.sp
  · exact .inr ⟨h, push_bad v k h⟩
  · exact .inl ⟨by omega, by omega, push_ok v k (by omega) (by omega)⟩

theorem pop_cases (s : State) (k : Byte → State → Result) :
    (s.sp ≤ 255 ∧ pop s k = k (s.mem.read s.sp) (s.setSp (s.sp + 1))) ∨
    (255 < s.sp ∧ pop s k = .next (s.raise .outOfRange .memory (s.sp : Int))) := by
  by_cases h : s.sp ≤ 255
  · exact .inl ⟨h, pop_ok k h⟩
  · exact .inr ⟨by omega, pop_bad k (by omega)⟩

end Sys2Proof.Machine
end

