-- ==== Sys2Proof/Laws/Exec.lean ====
section
/-! SUPPORT. Everything an instruction can do, said once: it has its effect, or it raises OutOfRange and changes
nothing else. Every fact about `exec` follows from `exec_cases` without unfolding it again. -/

namespace Sys2Proof.Machine

/-- The effect of an instruction whose checks pass, in the named updates. -/
def Effect : Instr → State → State → Prop
  | .halt, s, t => t = (s.advance 1).halt
  | .loadImmediate r imm, s, t => ∃ h : r.toNat < 8, t = (s.setReg ⟨r.toNat, h⟩ imm).advance 3
  | .print r, s, t => ∃ h : r.toNat < 8, t = (s.emit (s.reg ⟨r.toNat, h⟩)).advance 2
  | .add a b, s, t => ∃ (ha : a.toNat < 8) (hb : b.toNat < 8), t = (s.setReg ⟨a.toNat, ha⟩
      (BitVec.ofNat 8 (((s.reg ⟨a.toNat, ha⟩).toNat + (s.reg ⟨b.toNat, hb⟩).toNat) % 256))).advance 3
  | .mul a b, s, t => ∃ (ha : a.toNat < 8) (hb : b.toNat < 8), t = (s.setReg ⟨a.toNat, ha⟩
      (BitVec.ofNat 8 (((s.reg ⟨a.toNat, ha⟩).toNat * (s.reg ⟨b.toNat, hb⟩).toNat) % 256))).advance 3
  | .cmp a b, s, t => ∃ (ha : a.toNat < 8) (hb : b.toNat < 8),
      t = (s.setFl (compareFlags (s.reg ⟨a.toNat, ha⟩) (s.reg ⟨b.toNat, hb⟩))).advance 3
  | .push r, s, t => 1 ≤ s.sp ∧ s.sp ≤ 256 ∧ ∃ h : r.toNat < 8,
      t = ((s.setSp (s.sp - 1)).store (s.sp - 1) (s.reg ⟨r.toNat, h⟩).toNat).advance 2
  | .pop r, s, t => s.sp ≤ 255 ∧ ∃ h : r.toNat < 8,
      t = ((s.setSp (s.sp + 1)).setReg ⟨r.toNat, h⟩ (s.mem.read s.sp)).advance 2
  | .call r, s, t => 1 ≤ s.sp ∧ s.sp ≤ 256 ∧ ∃ h : r.toNat < 8,
      t = ((s.setSp (s.sp - 1)).store (s.sp - 1) (s.pc + 2)).setPc (s.reg ⟨r.toNat, h⟩).toNat
  | .ret, s, t => s.sp ≤ 255 ∧ t = (s.setSp (s.sp + 1)).setPc (s.mem.read s.sp).toNat
  | .jump r, s, t => ∃ h : r.toNat < 8, t = s.setPc (s.reg ⟨r.toNat, h⟩).toNat
  | .jumpIfEqual r, s, t => (flagE s.fl = true ∧ ∃ h : r.toNat < 8, t = s.setPc (s.reg ⟨r.toNat, h⟩).toNat) ∨
      (flagE s.fl = false ∧ t = s.advance 2)
  | .jumpIfNotEqual r, s, t => (flagE s.fl = false ∧ ∃ h : r.toNat < 8, t = s.setPc (s.reg ⟨r.toNat, h⟩).toNat) ∨
      (flagE s.fl = true ∧ t = s.advance 2)

/-- The byte names no register. -/
def BadReg (r : Byte) (space : Space) (value : Int) : Prop :=
  space = .register ∧ value = (r.toNat : Int) ∧ 8 ≤ r.toNat

/-- The first failing check of an instruction. -/
def Raises : Instr → State → Space → Int → Prop
  | .halt, _, _, _ => False
  | .loadImmediate r _, _, p, v => BadReg r p v
  | .print r, _, p, v => BadReg r p v
  | .add a b, _, p, v => BadReg a p v ∨ (a.toNat < 8 ∧ BadReg b p v)
  | .mul a b, _, p, v => BadReg a p v ∨ (a.toNat < 8 ∧ BadReg b p v)
  | .cmp a b, _, p, v => BadReg a p v ∨ (a.toNat < 8 ∧ BadReg b p v)
  | .push r, s, p, v => BadReg r p v ∨
      (r.toNat < 8 ∧ p = .memory ∧ v = (s.sp : Int) - 1 ∧ (s.sp = 0 ∨ 256 < s.sp))
  | .pop r, s, p, v => BadReg r p v ∨ (r.toNat < 8 ∧ p = .memory ∧ v = (s.sp : Int) ∧ 255 < s.sp)
  | .call r, s, p, v => BadReg r p v ∨
      (r.toNat < 8 ∧ p = .memory ∧ v = (s.sp : Int) - 1 ∧ (s.sp = 0 ∨ 256 < s.sp))
  | .ret, s, p, v => p = .memory ∧ v = (s.sp : Int) ∧ 255 < s.sp
  | .jump r, _, p, v => BadReg r p v
  | .jumpIfEqual r, s, p, v => flagE s.fl = true ∧ BadReg r p v
  | .jumpIfNotEqual r, s, p, v => flagE s.fl = false ∧ BadReg r p v

theorem aluInstr_cases (op : AluOp) (a b : Byte) (s : State) :
    (∃ (ha : a.toNat < 8) (hb : b.toNat < 8), aluInstr op a b s = .next ((s.writeAlu ⟨a.toNat, ha⟩
      (alu op (s.reg ⟨a.toNat, ha⟩) (s.reg ⟨b.toNat, hb⟩))).advance 3)) ∨
    (∃ p v, aluInstr op a b s = .next (s.raise .outOfRange p v) ∧
      (BadReg a p v ∨ (a.toNat < 8 ∧ BadReg b p v))) := by
  unfold aluInstr
  obtain ⟨ha, hb, h⟩ | ⟨ha, h⟩ | ⟨ha, hb, h⟩ := regPair_cases a b s fun ra rb =>
    .next ((s.writeAlu ra (alu op (s.reg ra) (s.reg rb))).advance 3)
  · exact .inl ⟨ha, hb, h⟩
  · exact .inr ⟨_, _, h, .inl ⟨rfl, rfl, ha⟩⟩
  · exact .inr ⟨_, _, h, .inr ⟨ha, rfl, rfl, hb⟩⟩

theorem jumpTo_cases (r : Byte) (s : State) :
    (∃ h : r.toNat < 8, jumpTo r s = .next (s.setPc (s.reg ⟨r.toNat, h⟩).toNat)) ∨
    (∃ p v, jumpTo r s = .next (s.raise .outOfRange p v) ∧ BadReg r p v) := by
  unfold jumpTo
  obtain ⟨h, hr⟩ | ⟨h, hr⟩ := regOperand_cases r s fun rt => .next (s.setPc (s.reg rt).toNat)
  · exact .inl ⟨h, hr⟩
  · exact .inr ⟨_, _, hr, rfl, rfl, h⟩

theorem push_instr_cases (v : Reg → Nat) (r : Byte) (s : State) (k : Reg → State → State) :
    (1 ≤ s.sp ∧ s.sp ≤ 256 ∧ ∃ h : r.toNat < 8,
      (regOperand r s fun rs => push (v rs) s fun s' => .next (k rs s')) =
        .next (k ⟨r.toNat, h⟩ ((s.setSp (s.sp - 1)).store (s.sp - 1) (v ⟨r.toNat, h⟩)))) ∨
    (∃ p x, (regOperand r s fun rs => push (v rs) s fun s' => .next (k rs s')) =
        .next (s.raise .outOfRange p x) ∧
      (BadReg r p x ∨ (r.toNat < 8 ∧ p = .memory ∧ x = (s.sp : Int) - 1 ∧ (s.sp = 0 ∨ 256 < s.sp)))) := by
  obtain ⟨h, hr⟩ | ⟨h, hr⟩ := regOperand_cases r s fun rs => push (v rs) s fun s' => .next (k rs s')
  · rw [hr]
    obtain ⟨h1, h2, hp⟩ | ⟨h1, hp⟩ := push_cases (v ⟨r.toNat, h⟩) s fun s' => .next (k ⟨r.toNat, h⟩ s')
    · exact .inl ⟨h1, h2, h, hp⟩
    · exact .inr ⟨_, _, hp, .inr ⟨h, rfl, rfl, h1⟩⟩
  · exact .inr ⟨_, _, hr, .inl ⟨rfl, rfl, h⟩⟩

/-- An instruction has its effect, or raises OutOfRange and changes nothing but `run` and the fault record. -/
theorem exec_cases (i : Instr) (s : State) :
    (∃ t, exec i s = .next t ∧ Effect i s t) ∨
    (∃ p v, exec i s = .next (s.raise .outOfRange p v) ∧ Raises i s p v) := by
  cases i with
  | halt => exact .inl ⟨_, rfl, rfl⟩
  | loadImmediate r imm =>
    obtain ⟨h, hr⟩ | ⟨h, hr⟩ := regOperand_cases r s fun rd =>
      .next ((s.setReg rd (immOperand imm)).advance 3)
    · exact .inl ⟨_, hr, h, rfl⟩
    · exact .inr ⟨_, _, hr, rfl, rfl, h⟩
  | print r =>
    obtain ⟨h, hr⟩ | ⟨h, hr⟩ := regOperand_cases r s fun rs => .next ((s.emit (s.reg rs)).advance 2)
    · exact .inl ⟨_, hr, h, rfl⟩
    · exact .inr ⟨_, _, hr, rfl, rfl, h⟩
  | add a b =>
    obtain ⟨ha, hb, h⟩ | ⟨p, v, h, hp⟩ := aluInstr_cases .add a b s
    · exact .inl ⟨_, h, ha, hb, rfl⟩
    · exact .inr ⟨p, v, h, hp⟩
  | mul a b =>
    obtain ⟨ha, hb, h⟩ | ⟨p, v, h, hp⟩ := aluInstr_cases .mul a b s
    · exact .inl ⟨_, h, ha, hb, rfl⟩
    · exact .inr ⟨p, v, h, hp⟩
  | cmp a b =>
    obtain ⟨ha, hb, h⟩ | ⟨p, v, h, hp⟩ := aluInstr_cases .cmp a b s
    · exact .inl ⟨_, h, ha, hb, rfl⟩
    · exact .inr ⟨p, v, h, hp⟩
  | push r =>
    obtain ⟨h1, h2, h, hr⟩ | ⟨p, v, hr, hp⟩ :=
      push_instr_cases (fun rs => (s.reg rs).toNat) r s fun _ s' => s'.advance 2
    · exact .inl ⟨_, hr, h1, h2, h, rfl⟩
    · exact .inr ⟨p, v, hr, hp⟩
  | call r =>
    obtain ⟨h1, h2, h, hr⟩ | ⟨p, v, hr, hp⟩ :=
      push_instr_cases (fun _ => s.pc + 2) r s fun rt s' => s'.setPc (s.reg rt).toNat
    · exact .inl ⟨_, hr, h1, h2, h, rfl⟩
    · exact .inr ⟨p, v, hr, hp⟩
  | pop r =>
    obtain ⟨h, hr⟩ | ⟨h, hr⟩ := regOperand_cases r s fun rd =>
      pop s fun v s' => .next ((s'.setReg rd v).advance 2)
    · obtain ⟨h1, hp⟩ | ⟨h1, hp⟩ := pop_cases s fun v s' => .next ((s'.setReg ⟨r.toNat, h⟩ v).advance 2)
      · exact .inl ⟨_, hr.trans hp, h1, h, rfl⟩
      · exact .inr ⟨_, _, hr.trans hp, .inr ⟨h, rfl, rfl, h1⟩⟩
    · exact .inr ⟨_, _, hr, .inl ⟨rfl, rfl, h⟩⟩
  | ret =>
    obtain ⟨h, hp⟩ | ⟨h, hp⟩ := pop_cases s fun t s' => .next (s'.setPc t.toNat)
    · exact .inl ⟨_, hp, h, rfl⟩
    · exact .inr ⟨_, _, hp, rfl, rfl, h⟩
  | jump r =>
    obtain ⟨h, hr⟩ | ⟨p, v, hr, hp⟩ := jumpTo_cases r s
    · exact .inl ⟨_, hr, h, rfl⟩
    · exact .inr ⟨p, v, hr, hp⟩
  | jumpIfEqual r =>
    show (∃ t, jumpWhen (flagE s.fl) r s = _ ∧ _) ∨ (∃ p v, jumpWhen (flagE s.fl) r s = _ ∧ _)
    cases hf : flagE s.fl with
    | true =>
      obtain ⟨h, hr⟩ | ⟨p, v, hr, hp⟩ := jumpTo_cases r s
      · exact .inl ⟨_, hr, .inl ⟨hf, h, rfl⟩⟩
      · exact .inr ⟨p, v, hr, hf, hp⟩
    | false => exact .inl ⟨_, rfl, .inr ⟨hf, rfl⟩⟩
  | jumpIfNotEqual r =>
    show (∃ t, jumpWhen (!flagE s.fl) r s = _ ∧ _) ∨ (∃ p v, jumpWhen (!flagE s.fl) r s = _ ∧ _)
    cases hf : flagE s.fl with
    | false =>
      obtain ⟨h, hr⟩ | ⟨p, v, hr, hp⟩ := jumpTo_cases r s
      · exact .inl ⟨_, hr, .inl ⟨hf, h, rfl⟩⟩
      · exact .inr ⟨p, v, hr, hf, hp⟩
    | true => exact .inl ⟨_, rfl, .inr ⟨hf, rfl⟩⟩

/-- The next state of an instruction: its effect, or the state of the raised fault. -/
theorem exec_next {i : Instr} {s t : State} (h : exec i s = .next t) :
    Effect i s t ∨ ∃ p v, t = s.raise .outOfRange p v ∧ Raises i s p v := by
  obtain ⟨u, hu, he⟩ | ⟨p, v, hu, hr⟩ := exec_cases i s
  · obtain rfl : u = t := by simpa [h] using hu.symm
    exact .inl he
  · exact .inr ⟨p, v, by simpa [h] using hu, hr⟩

/-- No instruction both has its effect and raises. -/
theorem not_raises_of_effect {i : Instr} {s t : State} {p : Space} {v : Int} (he : Effect i s t) :
    ¬ Raises i s p v := by
  cases i with
  | halt => exact id
  | loadImmediate r _ => obtain ⟨h, _⟩ := he; rintro ⟨_, _, h'⟩; omega
  | print r => obtain ⟨h, _⟩ := he; rintro ⟨_, _, h'⟩; omega
  | add a b => obtain ⟨ha, hb, _⟩ := he; rintro (⟨_, _, h'⟩ | ⟨_, _, _, h'⟩) <;> omega
  | mul a b => obtain ⟨ha, hb, _⟩ := he; rintro (⟨_, _, h'⟩ | ⟨_, _, _, h'⟩) <;> omega
  | cmp a b => obtain ⟨ha, hb, _⟩ := he; rintro (⟨_, _, h'⟩ | ⟨_, _, _, h'⟩) <;> omega
  | push r => obtain ⟨h1, h2, h, _⟩ := he; rintro (⟨_, _, h'⟩ | ⟨_, _, _, h'⟩) <;> omega
  | pop r => obtain ⟨h1, h, _⟩ := he; rintro (⟨_, _, h'⟩ | ⟨_, _, _, h'⟩) <;> omega
  | call r => obtain ⟨h1, h2, h, _⟩ := he; rintro (⟨_, _, h'⟩ | ⟨_, _, _, h'⟩) <;> omega
  | ret => obtain ⟨h, _⟩ := he; rintro ⟨_, _, h'⟩; omega
  | jump r => obtain ⟨h, _⟩ := he; rintro ⟨_, _, h'⟩; omega
  | jumpIfEqual r =>
    rintro ⟨hf, _, _, h'⟩
    obtain ⟨_, h, _⟩ | ⟨hn, _⟩ := he
    · omega
    · simp [hf] at hn
  | jumpIfNotEqual r =>
    rintro ⟨hf, _, _, h'⟩
    obtain ⟨_, h, _⟩ | ⟨hn, _⟩ := he
    · omega
    · simp [hf] at hn

/-- The effect is one state. -/
theorem Effect.unique {i : Instr} {s t u : State} (ht : Effect i s t) (hu : Effect i s u) : t = u := by
  cases i with
  | halt => exact ht.trans hu.symm
  | loadImmediate r _ => obtain ⟨_, rfl⟩ := ht; obtain ⟨_, rfl⟩ := hu; rfl
  | print r => obtain ⟨_, rfl⟩ := ht; obtain ⟨_, rfl⟩ := hu; rfl
  | add a b => obtain ⟨_, _, rfl⟩ := ht; obtain ⟨_, _, rfl⟩ := hu; rfl
  | mul a b => obtain ⟨_, _, rfl⟩ := ht; obtain ⟨_, _, rfl⟩ := hu; rfl
  | cmp a b => obtain ⟨_, _, rfl⟩ := ht; obtain ⟨_, _, rfl⟩ := hu; rfl
  | push r => obtain ⟨_, _, _, rfl⟩ := ht; obtain ⟨_, _, _, rfl⟩ := hu; rfl
  | pop r => obtain ⟨_, _, rfl⟩ := ht; obtain ⟨_, _, rfl⟩ := hu; rfl
  | call r => obtain ⟨_, _, _, rfl⟩ := ht; obtain ⟨_, _, _, rfl⟩ := hu; rfl
  | ret => obtain ⟨_, rfl⟩ := ht; obtain ⟨_, rfl⟩ := hu; rfl
  | jump r => obtain ⟨_, rfl⟩ := ht; obtain ⟨_, rfl⟩ := hu; rfl
  | jumpIfEqual r =>
    obtain ⟨hf, _, rfl⟩ | ⟨hf, rfl⟩ := ht <;> obtain ⟨hg, _, rfl⟩ | ⟨hg, rfl⟩ := hu <;> simp_all
  | jumpIfNotEqual r =>
    obtain ⟨hf, _, rfl⟩ | ⟨hf, rfl⟩ := ht <;> obtain ⟨hg, _, rfl⟩ | ⟨hg, rfl⟩ := hu <;> simp_all

/-- To run an instruction whose checks pass, show its effect. -/
theorem exec_of_effect {i : Instr} {s t : State} (h : Effect i s t) : exec i s = .next t := by
  obtain ⟨u, hu, he⟩ | ⟨p, v, _, hr⟩ := exec_cases i s
  · rw [hu, he.unique h]
  · exact absurd hr (not_raises_of_effect h)

/-- To run an instruction whose first failing check is known, show what it raises. -/
theorem exec_of_raises {i : Instr} {s : State} {p : Space} {v : Int} (h : Raises i s p v) :
    exec i s = .next (s.raise .outOfRange p v) := by
  obtain ⟨u, hu, he⟩ | ⟨q, w, hu, hr⟩ := exec_cases i s
  · exact absurd h (not_raises_of_effect he)
  · have : q = p ∧ w = v := by
      cases i <;> simp only [Raises, BadReg] at h hr <;> grind
    rw [hu, this.1, this.2]

end Sys2Proof.Machine
end

