-- ==== Sys2Proof/Laws/PerInstr.lean ====
section
/-! SUPPORT. Statements about every instruction as syntax, one lemma for each constructor. -/

namespace Sys2Proof.Laws.EncodingShape

/-- The encoding's length is the instruction's, and the opcode's bits have the structure that
spec/30_encoding.md R77 observes: bits 7:6 are the number of operand bytes; bit 5 is 1 exactly in ADD, MUL and
CMP; bit 4 exactly in CALL, RETURN and the jumps. -/
def Statement (i : Instr) : Prop :=
  (encode i).length = i.length ∧
  (i.opcode >>> 6).toNat + 1 = i.length ∧
  i.opcode.getLsbD 5 = (match i with
    | .add _ _ | .mul _ _ | .cmp _ _ => true
    | .halt | .loadImmediate _ _ | .print _ | .push _ | .pop _ | .call _ | .ret | .jump _ | .jumpIfEqual _
    | .jumpIfNotEqual _ => false) ∧
  i.opcode.getLsbD 4 = (match i with
    | .call _ | .ret | .jump _ | .jumpIfEqual _ | .jumpIfNotEqual _ => true
    | .halt | .loadImmediate _ _ | .print _ | .add _ _ | .mul _ _ | .cmp _ _ | .push _ | .pop _ => false)

theorem halt : Statement .halt :=
  ⟨rfl, by simp [Instr.opcode, Instr.length], by simp [Instr.opcode], by simp [Instr.opcode]⟩
theorem loadImmediate (r imm : Byte) : Statement (.loadImmediate r imm) :=
  ⟨rfl, by simp [Instr.opcode, Instr.length], by simp [Instr.opcode], by simp [Instr.opcode]⟩
theorem print (r : Byte) : Statement (.print r) :=
  ⟨rfl, by simp [Instr.opcode, Instr.length], by simp [Instr.opcode], by simp [Instr.opcode]⟩
theorem add (a b : Byte) : Statement (.add a b) :=
  ⟨rfl, by simp [Instr.opcode, Instr.length], by simp [Instr.opcode], by simp [Instr.opcode]⟩
theorem mul (a b : Byte) : Statement (.mul a b) :=
  ⟨rfl, by simp [Instr.opcode, Instr.length], by simp [Instr.opcode], by simp [Instr.opcode]⟩
theorem cmp (a b : Byte) : Statement (.cmp a b) :=
  ⟨rfl, by simp [Instr.opcode, Instr.length], by simp [Instr.opcode], by simp [Instr.opcode]⟩
theorem push (r : Byte) : Statement (.push r) :=
  ⟨rfl, by simp [Instr.opcode, Instr.length], by simp [Instr.opcode], by simp [Instr.opcode]⟩
theorem pop (r : Byte) : Statement (.pop r) :=
  ⟨rfl, by simp [Instr.opcode, Instr.length], by simp [Instr.opcode], by simp [Instr.opcode]⟩
theorem call (r : Byte) : Statement (.call r) :=
  ⟨rfl, by simp [Instr.opcode, Instr.length], by simp [Instr.opcode], by simp [Instr.opcode]⟩
theorem ret : Statement .ret :=
  ⟨rfl, by simp [Instr.opcode, Instr.length], by simp [Instr.opcode], by simp [Instr.opcode]⟩
theorem jump (r : Byte) : Statement (.jump r) :=
  ⟨rfl, by simp [Instr.opcode, Instr.length], by simp [Instr.opcode], by simp [Instr.opcode]⟩
theorem jumpIfEqual (r : Byte) : Statement (.jumpIfEqual r) :=
  ⟨rfl, by simp [Instr.opcode, Instr.length], by simp [Instr.opcode], by simp [Instr.opcode]⟩
theorem jumpIfNotEqual (r : Byte) : Statement (.jumpIfNotEqual r) :=
  ⟨rfl, by simp [Instr.opcode, Instr.length], by simp [Instr.opcode], by simp [Instr.opcode]⟩

end Sys2Proof.Laws.EncodingShape
end

