-- ==== Sys2Proof/Laws/Step.lean ====
section
/-! SUPPORT. What a step can do, said once: fault at fetch, fault at decode, or run one instruction. -/

namespace Sys2Proof.Machine

theorem eagerCheck_ok {eager : Bool} {s : State} (k : Result) (h : eager = true → s.pc ≤ 253) :
    eagerCheck eager s k = k := by
  unfold eagerCheck
  cases eager with
  | false => rfl
  | true =>
    have := h rfl
    rw [if_pos rfl, show (s.pc : Int) + 1 = ((s.pc + 1 : Nat) : Int) by omega, addrCheck_ok _ _ (by omega),
      show (s.pc : Int) + 2 = ((s.pc + 2 : Nat) : Int) by omega, addrCheck_ok _ _ (by omega)]

/-- At 254 and 255 the first address out of range is 256. -/
theorem eagerCheck_bad {s : State} (k : Result) (h : s.pc = 254 ∨ s.pc = 255) :
    eagerCheck true s k = .next (s.raise .outOfRange .memory 256) := by
  unfold eagerCheck
  rw [if_pos rfl]
  rcases h with h | h
  · rw [show (s.pc : Int) + 1 = ((255 : Nat) : Int) by omega, addrCheck_ok _ _ (by omega),
      addrCheck_bad _ _ (by omega), show (s.pc : Int) + 2 = 256 by omega]
  · rw [addrCheck_bad _ _ (by omega), show (s.pc : Int) + 1 = 256 by omega]

theorem operandByte_ok {n : Nat} {s : State} (k : Byte → Result) (h : s.pc + n ≤ 255) :
    operandByte n s k = k (s.mem.read (s.pc + n)) := by
  unfold operandByte
  rw [show (s.pc : Int) + (n : Int) = ((s.pc + n : Nat) : Int) by omega, memRead_ok _ _ h]

theorem operandByte_bad {n : Nat} {s : State} (k : Byte → Result) (h : 255 < s.pc + n) :
    operandByte n s k = .next (s.raise .outOfRange .memory ((s.pc : Int) + (n : Int))) :=
  memRead_bad s k (by omega)

/-- The fetch of a state whose pc is in memory and passes the eager check. -/
theorem fetch_ok {eager : Bool} {s : State} (k : Instr → Result) (h : s.pc ≤ 255)
    (he : eager = true → s.pc ≤ 253) :
    fetch eager s k = (match rowOf (s.mem.read s.pc) with
      | none => raiseIllegalInstruction (s.mem.read s.pc) s
      | some row => fetchOperands row s k) := by
  unfold fetch
  refine (memRead_ok _ _ h).trans ((eagerCheck_ok _ he).trans ?_)
  cases rowOf (s.mem.read s.pc) <;> rfl

theorem operandByte_agrees (n : Nat) {s s' : State} (hp : s'.pc = s.pc) (hm : s'.mem = s.mem) :
    (∃ b, (∀ k, operandByte n s k = k b) ∧ ∀ k, operandByte n s' k = k b) ∨
    (∃ v, (∀ k, operandByte n s k = .next (s.raise .outOfRange .memory v)) ∧
      ∀ k, operandByte n s' k = .next (s'.raise .outOfRange .memory v)) := by
  by_cases h : s.pc + n ≤ 255
  · refine .inl ⟨_, fun k => operandByte_ok k h, fun k => ?_⟩
    rw [operandByte_ok k (by omega), hp, hm]
  · refine .inr ⟨_, fun k => operandByte_bad k (by omega), fun k => ?_⟩
    rw [operandByte_bad k (by omega), hp]

theorem fetchOperands_agrees (row : Row) {s s' : State} (hp : s'.pc = s.pc) (hm : s'.mem = s.mem) :
    (∃ i : Instr, (∀ k, fetchOperands row s k = k i) ∧ ∀ k, fetchOperands row s' k = k i) ∨
    (∃ v, (∀ k, fetchOperands row s k = .next (s.raise .outOfRange .memory v)) ∧
      ∀ k, fetchOperands row s' k = .next (s'.raise .outOfRange .memory v)) := by
  cases row with
  | f0 i => exact .inl ⟨i, fun _ => rfl, fun _ => rfl⟩
  | f1r mk =>
    obtain ⟨b, h, h'⟩ | ⟨v, h, h'⟩ := operandByte_agrees 1 hp hm
    · exact .inl ⟨mk b, fun _ => h _, fun _ => h' _⟩
    · exact .inr ⟨v, fun _ => h _, fun _ => h' _⟩
  | f2ri mk =>
    obtain ⟨a, h, h'⟩ | ⟨v, h, h'⟩ := operandByte_agrees 1 hp hm
    · obtain ⟨b, g, g'⟩ | ⟨v, g, g'⟩ := operandByte_agrees 2 hp hm
      · exact .inl ⟨mk a b, fun _ => (h _).trans (g _), fun _ => (h' _).trans (g' _)⟩
      · exact .inr ⟨v, fun _ => (h _).trans (g _), fun _ => (h' _).trans (g' _)⟩
    · exact .inr ⟨v, fun _ => h _, fun _ => h' _⟩
  | f2rr mk =>
    obtain ⟨a, h, h'⟩ | ⟨v, h, h'⟩ := operandByte_agrees 1 hp hm
    · obtain ⟨b, g, g'⟩ | ⟨v, g, g'⟩ := operandByte_agrees 2 hp hm
      · exact .inl ⟨mk a b, fun _ => (h _).trans (g _), fun _ => (h' _).trans (g' _)⟩
      · exact .inr ⟨v, fun _ => (h _).trans (g _), fun _ => (h' _).trans (g' _)⟩
    · exact .inr ⟨v, fun _ => h _, fun _ => h' _⟩

/-- The operands of a row: the instruction they make has that row's opcode, lies in memory and is what its bytes
decode to; or the first operand address out of range is 256. -/
theorem fetchOperands_cases {op : Byte} {row : Row} (s : State) (k : Instr → Result) (h : s.pc ≤ 255)
    (hrow : rowOf op = some row) :
    (∃ i : Instr, i.opcode = op ∧ s.pc + i.length ≤ 256 ∧
      i.operandBytes = (List.range (i.length - 1)).map (fun n => s.mem.read (s.pc + 1 + n)) ∧
      fetchOperands row s k = k i) ∨
    (254 ≤ s.pc ∧ fetchOperands row s k = .next (s.raise .outOfRange .memory 256)) := by
  have one : ∀ mk : Byte → Instr, (∀ r, (mk r).opcode = op ∧ (mk r).length = 2 ∧ (mk r).operandBytes = [r]) →
      (∃ i : Instr, i.opcode = op ∧ s.pc + i.length ≤ 256 ∧
        i.operandBytes = (List.range (i.length - 1)).map (fun n => s.mem.read (s.pc + 1 + n)) ∧
        fetchOperands (.f1r mk) s k = k i) ∨
      (254 ≤ s.pc ∧ fetchOperands (.f1r mk) s k = .next (s.raise .outOfRange .memory 256)) := by
    intro mk hmk
    by_cases hp : s.pc + 1 ≤ 255
    · refine .inl ⟨mk (s.mem.read (s.pc + 1)), (hmk _).1, ?_, ?_, operandByte_ok _ hp⟩
      · rw [(hmk _).2.1]; omega
      · rw [(hmk _).2.1, (hmk _).2.2]; rfl
    · refine .inr ⟨by omega, (operandByte_bad _ (by omega)).trans ?_⟩
      rw [show (s.pc : Int) + ((1 : Nat) : Int) = 256 by omega]
  have two : ∀ mk : Byte → Byte → Instr,
      (∀ a b, (mk a b).opcode = op ∧ (mk a b).length = 3 ∧ (mk a b).operandBytes = [a, b]) →
      ∀ row' : Row, (fetchOperands row' s k =
        operandByte 1 s fun a => operandByte 2 s fun b => k (mk a b)) →
      (∃ i : Instr, i.opcode = op ∧ s.pc + i.length ≤ 256 ∧
        i.operandBytes = (List.range (i.length - 1)).map (fun n => s.mem.read (s.pc + 1 + n)) ∧
        fetchOperands row' s k = k i) ∨
      (254 ≤ s.pc ∧ fetchOperands row' s k = .next (s.raise .outOfRange .memory 256)) := by
    intro mk hmk row' hr
    rw [hr]
    by_cases hp : s.pc + 2 ≤ 255
    · refine .inl ⟨mk (s.mem.read (s.pc + 1)) (s.mem.read (s.pc + 2)), (hmk _ _).1, ?_, ?_, ?_⟩
      · rw [(hmk _ _).2.1]; omega
      · rw [(hmk _ _).2.1, (hmk _ _).2.2]; rfl
      · rw [operandByte_ok _ (by omega), operandByte_ok _ hp]
    · refine .inr ⟨by omega, ?_⟩
      by_cases h1 : s.pc + 1 ≤ 255
      · rw [operandByte_ok _ h1, operandByte_bad _ (by omega),
          show (s.pc : Int) + ((2 : Nat) : Int) = 256 by omega]
      · rw [operandByte_bad _ (by omega), show (s.pc : Int) + ((1 : Nat) : Int) = 256 by omega]
  obtain ⟨i, rfl, rfl⟩ := exists_instr_of_rowOf hrow
  cases i with
  | halt => exact .inl ⟨.halt, rfl, by simp only [Instr.length]; omega, rfl, rfl⟩
  | ret => exact .inl ⟨.ret, rfl, by simp only [Instr.length]; omega, rfl, rfl⟩
  | loadImmediate _ _ => exact two .loadImmediate (fun _ _ => ⟨rfl, rfl, rfl⟩) _ rfl
  | add _ _ => exact two .add (fun _ _ => ⟨rfl, rfl, rfl⟩) _ rfl
  | mul _ _ => exact two .mul (fun _ _ => ⟨rfl, rfl, rfl⟩) _ rfl
  | cmp _ _ => exact two .cmp (fun _ _ => ⟨rfl, rfl, rfl⟩) _ rfl
  | print _ => exact one .print fun _ => ⟨rfl, rfl, rfl⟩
  | push _ => exact one .push fun _ => ⟨rfl, rfl, rfl⟩
  | pop _ => exact one .pop fun _ => ⟨rfl, rfl, rfl⟩
  | call _ => exact one .call fun _ => ⟨rfl, rfl, rfl⟩
  | jump _ => exact one .jump fun _ => ⟨rfl, rfl, rfl⟩
  | jumpIfEqual _ => exact one .jumpIfEqual fun _ => ⟨rfl, rfl, rfl⟩
  | jumpIfNotEqual _ => exact one .jumpIfNotEqual fun _ => ⟨rfl, rfl, rfl⟩

/-- What a fetch finds depends on `pc` and memory alone: two states that agree there fetch the same instruction,
or raise the same fault. -/
theorem fetch_agrees (eager : Bool) {s s' : State} (hp : s'.pc = s.pc) (hm : s'.mem = s.mem) :
    (∃ i : Instr, (∀ k, fetch eager s k = k i) ∧ ∀ k, fetch eager s' k = k i) ∨
    (∃ c p v, (∀ k, fetch eager s k = .next (s.raise c p v)) ∧ ∀ k, fetch eager s' k = .next (s'.raise c p v)) := by
  by_cases h : 255 < s.pc
  · refine .inr ⟨.outOfRange, .memory, (s.pc : Int), fun k => memRead_bad s _ (by omega), fun k => ?_⟩
    rw [← hp]; exact memRead_bad s' _ (by omega)
  by_cases he : eager = true → s.pc ≤ 253
  · cases hr : rowOf (s.mem.read s.pc) with
    | none =>
      refine .inr ⟨.illegalInstruction, .none, ((s.mem.read s.pc).toNat : Int), fun k => ?_, fun k => ?_⟩
      · rw [fetch_ok _ (by omega) he, hr]; rfl
      · rw [fetch_ok _ (by omega) (by rwa [hp]), hp, hm, hr]; rfl
    | some row =>
      have hf : ∀ k, fetch eager s k = fetchOperands row s k := fun k => by rw [fetch_ok _ (by omega) he, hr]
      have hf' : ∀ k, fetch eager s' k = fetchOperands row s' k := fun k => by
        rw [fetch_ok _ (by omega) (by rwa [hp]), hp, hm, hr]
      obtain ⟨i, h⟩ | h := fetchOperands_agrees row hp hm
      · exact .inl ⟨i, fun k => (hf k).trans (h.1 k), fun k => (hf' k).trans (h.2 k)⟩
      · obtain ⟨v, h⟩ := h
        exact .inr ⟨_, _, v, fun k => (hf k).trans (h.1 k), fun k => (hf' k).trans (h.2 k)⟩
  · simp only [Classical.not_imp] at he
    obtain ⟨rfl, he⟩ := he
    refine .inr ⟨.outOfRange, .memory, 256, fun k => ?_, fun k => ?_⟩
    · unfold fetch; rw [memRead_ok _ _ (by omega), eagerCheck_bad _ (by omega)]
    · unfold fetch; rw [memRead_ok _ _ (by omega), eagerCheck_bad _ (by omega)]

theorem stepWith_running {s : State} (eager : Bool) (h : s.run = .running) :
    stepWith eager s = fetch eager s fun i => exec i s := by
  unfold stepWith
  rw [h]

/-- A step of a RUNNING state: the pc is out of memory; or an operand address is; or the opcode is illegal; or
the instruction at `pc` runs. -/
theorem stepWith_cases {s : State} (eager : Bool) (h : s.run = .running) :
    (255 < s.pc ∧ stepWith eager s = .next (s.raise .outOfRange .memory (s.pc : Int))) ∨
    (254 ≤ s.pc ∧ s.pc ≤ 255 ∧ stepWith eager s = .next (s.raise .outOfRange .memory 256)) ∨
    (s.pc ≤ 255 ∧ rowOf (s.mem.read s.pc) = none ∧
      stepWith eager s = .next (s.raise .illegalInstruction .none ((s.mem.read s.pc).toNat : Int))) ∨
    (∃ i : Instr, i.opcode = s.mem.read s.pc ∧ s.pc + i.length ≤ 256 ∧
      i.operandBytes = (List.range (i.length - 1)).map (fun n => s.mem.read (s.pc + 1 + n)) ∧
      stepWith eager s = exec i s) := by
  rw [stepWith_running eager h]
  by_cases hp : 255 < s.pc
  · exact .inl ⟨hp, memRead_bad s _ (by omega)⟩
  · by_cases he : eager = true → s.pc ≤ 253
    · rw [fetch_ok _ (by omega) he]
      cases hr : rowOf (s.mem.read s.pc) with
      | none => exact .inr (.inr (.inl ⟨by omega, rfl, rfl⟩))
      | some row =>
        obtain ⟨i, h1, h2, h3, h4⟩ | ⟨h1, h2⟩ := fetchOperands_cases s (fun i => exec i s) (by omega) hr
        · exact .inr (.inr (.inr ⟨i, h1, h2, h3, h4⟩))
        · exact .inr (.inl ⟨h1, by omega, h2⟩)
    · simp only [Classical.not_imp] at he
      obtain ⟨rfl, he⟩ := he
      refine .inr (.inl ⟨by omega, by omega, ?_⟩)
      unfold fetch
      rw [memRead_ok _ _ (by omega), eagerCheck_bad _ (by omega)]

/-- A state that has a next state is RUNNING. -/
theorem running_of_stepWith_next {eager : Bool} {s t : State} (h : stepWith eager s = .next t) :
    s.run = .running := by
  unfold stepWith at h
  split at h
  · assumption
  · cases h
  · cases h

end Sys2Proof.Machine
end

