-- ==== Sys2Proof/Tests/Slice0.lean ====
section
/-! SUPPORT. The model's own tests: decoding of words written out from spec/30_encoding.md R76, one or two vectors
of spec/95_test_vectors.md for each instruction, the WellFormed smoke tests, and for every obligation with
hypotheses a state and operands that meet them. Expected values are the spec's. -/

namespace Sys2Proof.Tests
open Sys2Proof Sys2Proof.Machine

/-! ### Helpers -/

/-- The next state, if there is one. -/
def after : Result → Option State
  | .next s => some s
  | .fault _ => none
  | .refused _ => none

/-- A RUNNING state with the registers, pc, sp and fl given and the bytes put at `pc`. -/
def st (x : Vector Byte 8) (pc sp : Nat) (fl : Byte) (code : List Byte) : State :=
  { State.reset with x := x, pc := pc, sp := sp, fl := fl, mem := Memory.writeBytes [] pc code }

/-- The registers all zero but R0, R1 and R7. -/
def xs (r0 r1 : Byte) : Vector Byte 8 := #v[r0, r1, 0, 0, 0, 0, 0, 0xF4]

/-- A plain state: pc 20, sp 0xF4. -/
def s0 : State := st (xs 5 12) 20 0xF4 0 []

/-- With the stack full, and empty to the top of memory. -/
def sFull : State := { s0 with sp := 0 }
def sTop : State := { s0 with sp := 256 }

/-! ### Decoding: the words are spec/30_encoding.md R76's bits, written out -/

theorem test_decode_halt : decode [0b00000001#8] = .ok (.halt, []) := rfl
theorem test_decode_loadImmediate :
    decode [0b10000010#8, 0b00000000#8, 0b00001000#8] = .ok (.loadImmediate 0 8, []) := rfl
theorem test_decode_print : decode [0b01000111#8, 0b00000110#8] = .ok (.print 6, []) := rfl
theorem test_decode_add : decode [0b10100000#8, 0b00000010#8, 0b00000101#8] = .ok (.add 2 5, []) := rfl
theorem test_decode_mul : decode [0b10100010#8, 0b00000010#8, 0b00000101#8] = .ok (.mul 2 5, []) := rfl
theorem test_decode_cmp : decode [0b10100111#8, 0b00000010#8, 0b00000101#8] = .ok (.cmp 2 5, []) := rfl
theorem test_decode_push : decode [0b01000101#8, 0b00000011#8] = .ok (.push 3, []) := rfl
theorem test_decode_pop : decode [0b01000110#8, 0b00000011#8] = .ok (.pop 3, []) := rfl
theorem test_decode_call : decode [0b01010000#8, 0b00000001#8] = .ok (.call 1, []) := rfl
theorem test_decode_ret : decode [0b00010001#8, 0xFF#8] = .ok (.ret, [0xFF#8]) := rfl
theorem test_decode_jump : decode [0b01010100#8, 0b11111111#8] = .ok (.jump 255, []) := rfl
theorem test_decode_jumpIfEqual : decode [0b01010101#8, 0b00000010#8] = .ok (.jumpIfEqual 2, []) := rfl
theorem test_decode_jumpIfNotEqual : decode [0b01010110#8, 0b00000011#8] = .ok (.jumpIfNotEqual 3, []) := rfl

/-- spec/30_encoding.md R78: 0x00, and bytes one bit away from opcodes, are illegal. -/
theorem test_decode_illegal :
    decode [0x00#8] = .error (.illegalOpcode 0x00#8) ∧ decode [0x02#8, 1, 1] = .error (.illegalOpcode 0x02#8) ∧
    decode [0xA1#8, 0, 0] = .error (.illegalOpcode 0xA1#8) := ⟨rfl, rfl, rfl⟩

theorem test_decode_truncated :
    decode [] = .error .noOpcode ∧ decode [0x82#8, 0] = .error (.missingOperand 0x82#8) := ⟨rfl, rfl⟩

/-- The second byte of a table word is bits 15..8; bits above `nbits` are 0. -/
theorem test_decodeTableWord :
    decodeTableWord 24 0x080082 = some (.loadImmediate 0 8) ∧ decodeTableWord 8 0x47 = some (.print 0) ∧
    decodeTableWord 8 0x0747 = some (.print 0) ∧ decodeTableWord 8 0x00 = none := by decide

/-- spec/30_encoding.md R86's example. -/
theorem test_encode : encode (.loadImmediate 0 8) = [0x82#8, 0x00#8, 0x08#8] := rfl

/-! ### WellFormed: an ill-formed term for each check -/

theorem test_wellFormed_refuses_first_operand :
    [Instr.loadImmediate 8 0, .print 8, .add 8 0, .mul 8 0, .cmp 8 0, .push 8, .pop 8, .call 8, .jump 8,
      .jumpIfEqual 8, .jumpIfNotEqual 255].all (fun i => !i.wellFormed) = true := by decide

theorem test_wellFormed_refuses_second_operand :
    [Instr.add 0 8, .mul 0 9, .cmp 7 255].all (fun i => !i.wellFormed) = true := by decide

theorem test_wellFormed_accepts :
    [Instr.halt, .ret, .loadImmediate 7 255, .add 7 7, .call 0].all (fun i => i.wellFormed) = true := by decide

/-! ### One step, with the expected values of spec/95_test_vectors.md -/

/-- V20. -/
theorem test_halt : after (step (st (xs 0 0) 10 0xF4 0 [0x01])) =
    some { st (xs 0 0) 10 0xF4 0 [0x01] with pc := 11, run := .halted } := by decide

/-- V21. -/
theorem test_loadImmediate : (after (step (st (xs 0 0) 0 0xF4 0 [0x82, 0x00, 0x08]))).map (fun t => (t.x, t.pc)) =
    some (xs 8 0, 3) := by decide

/-- V24: R7 is written, sp is not. -/
theorem test_loadImmediate_r7 :
    (after (step (st (xs 0 0) 0 0xF4 0 [0x82, 0x07, 0x10]))).map (fun t => (t.x[7], t.sp)) =
    some (0x10#8, 0xF4) := by decide

/-- V26. -/
theorem test_print : (after (step (st (xs 17 0) 9 0xF4 0 [0x47, 0x00]))).map (fun t => (t.out, t.pc)) =
    some ([17#8], 11) := by decide

/-- V29. -/
theorem test_print_bad_register :
    (after (step (st (xs 17 0) 9 0xF4 0 [0x47, 0xFF]))).map (fun t => (t.out, t.run, t.fault)) =
    some ([], .faulted, ⟨.outOfRange, 9, .register, 255⟩) := by decide

/-- V40: fl is unchanged. -/
theorem test_add : (after (step (st (xs 2 3) 0 0xF4 1 [0xA0, 0x00, 0x01]))).map (fun t => (t.x, t.fl, t.pc)) =
    some (xs 5 3, 0x01#8, 3) := by decide

/-- V41, V44: overflow wraps; a register is added to itself. -/
theorem test_add_wraps :
    (after (exec (.add 0 1) (st (xs 200 100) 0 0xF4 0 []))).map (fun t => t.x) = some (xs 44 100) ∧
    (after (exec (.add 0 0) (st (xs 128 0) 0 0xF4 0 []))).map (fun t => t.x) = some (xs 0 0) := by decide

/-- V50, V52. -/
theorem test_mul :
    (after (exec (.mul 0 1) (st (xs 255 255) 0 0xF4 0 []))).map (fun t => t.x) = some (xs 1 255) ∧
    (after (exec (.mul 0 1) (st (xs 3 86) 0 0xF4 0 []))).map (fun t => t.x) = some (xs 2 86) := by decide

/-- V47: the first operand is checked first. -/
theorem test_add_first_operand_first :
    (after (exec (.add 9 10) s0)).map (fun t => t.fault.value) = some 9 := by decide

/-- V33, V37, V31: unsigned; bits 7:2 cleared; less is 0. -/
theorem test_cmp :
    (after (exec (.cmp 0 1) (st (xs 0x80 0x7F) 0 0xF4 0 []))).map (fun t => t.fl) = some 0x02#8 ∧
    (after (exec (.cmp 0 1) (st (xs 9 9) 0 0xF4 0xFF []))).map (fun t => t.fl) = some 0x01#8 ∧
    (after (exec (.cmp 0 1) (st (xs 3 7) 0 0xF4 0xFF []))).map (fun t => t.fl) = some 0x00#8 := by decide

/-- V70. -/
theorem test_push :
    (after (step (st (xs 5 0) 0 0xF4 0 [0x45, 0x00]))).map (fun t => (t.sp, t.mem.read 0xF3, t.pc)) =
    some (0xF3, 5#8, 2) := by decide

/-- V72, V73: the register is checked before the stack. -/
theorem test_push_faults :
    (after (exec (.push 0) sFull)).map (fun t => (t.sp, t.fault.space, t.fault.value)) = some (0, .memory, -1) ∧
    (after (exec (.push 8) sFull)).map (fun t => (t.fault.space, t.fault.value)) = some (.register, 8) := by decide

/-- V75: the byte stays in memory. -/
theorem test_pop :
    (after (exec (.pop 1) { s0 with sp := 0xF3, mem := [(0xF3, 5)] })).map
      (fun t => (t.x[1], t.sp, t.mem.read 0xF3)) = some (5#8, 0xF4, 5#8) := by decide

/-- V76, V77. -/
theorem test_pop_at_the_top :
    (after (exec (.pop 2) { s0 with sp := 255, mem := [(255, 0x77)] })).map (fun t => (t.x[2], t.sp)) =
      some (0x77#8, 256) ∧
    (after (exec (.pop 2) sTop)).map (fun t => (t.run, t.fault.value)) = some (.faulted, 256) := by decide

/-- V79. -/
theorem test_call :
    (after (step (st (xs 0 11) 6 0xF4 0 [0x50, 0x01]))).map (fun t => (t.mem.read 0xF3, t.sp, t.pc)) =
    some (8#8, 0xF3, 11) := by decide

/-- V81, V82: the return address 256 is stored as 0 without the eager check; with it the fetch faults. -/
theorem test_call_at_254 :
    (after (stepWith false (st (xs 0 0x20) 254 0xF4 0 [0x50, 0x01]))).map
      (fun t => (t.mem.read 0xF3, t.sp, t.pc)) = some (0#8, 0xF3, 0x20) ∧
    (after (stepWith true (st (xs 0 0x20) 254 0xF4 0 [0x50, 0x01]))).map
      (fun t => (t.fault.space, t.fault.value, t.pc)) = some (.memory, 256, 254) := by decide

/-- V83, V84. -/
theorem test_ret :
    (after (exec .ret { s0 with sp := 0xF3, mem := [(0xF3, 8)] })).map (fun t => (t.pc, t.sp)) = some (8, 0xF4) ∧
    (after (exec .ret sTop)).map (fun t => (t.fault.space, t.fault.value)) = some (.memory, 256) := by decide

/-- V60, V61. -/
theorem test_jump :
    (after (exec (.jump 1) s0)).map (fun t => t.pc) = some 12 ∧
    (after (exec (.jump 8) s0)).map (fun t => (t.pc, t.fault.value)) = some (20, 8) := by decide

/-- V62, V63, V65. -/
theorem test_jumpIfEqual :
    (after (exec (.jumpIfEqual 1) { s0 with fl := 0x01 })).map (fun t => t.pc) = some 12 ∧
    (after (exec (.jumpIfEqual 1) { s0 with fl := 0x02 })).map (fun t => t.pc) = some 22 ∧
    (after (exec (.jumpIfEqual 1) { s0 with fl := 0x03 })).map (fun t => t.pc) = some 12 := by decide

/-- V66, V67: the register is checked only when the jump is taken. -/
theorem test_jumpIfEqual_bad_register :
    (after (exec (.jumpIfEqual 9) { s0 with fl := 0x00 })).map (fun t => (t.pc, t.run)) = some (22, .running) ∧
    (after (exec (.jumpIfEqual 9) { s0 with fl := 0x01 })).map (fun t => (t.pc, t.run)) =
      some (20, .faulted) := by decide

/-- V69, V90. -/
theorem test_jumpIfNotEqual :
    (after (exec (.jumpIfNotEqual 1) { s0 with fl := 0x02 })).map (fun t => t.pc) = some 12 ∧
    (after (exec (.jumpIfNotEqual 1) { s0 with fl := 0x01 })).map (fun t => t.pc) = some 22 := by decide

/-- V91, V92. -/
theorem test_jumpIfNotEqual_bad_register :
    (after (exec (.jumpIfNotEqual 9) { s0 with fl := 0x01 })).map (fun t => (t.pc, t.run)) =
      some (22, .running) ∧
    (after (exec (.jumpIfNotEqual 9) { s0 with fl := 0x00 })).map (fun t => t.fault) =
      some ⟨.outOfRange, 20, .register, 9⟩ := by decide

/-! ### Fetch, reset, interface -/

/-- V1, V4. -/
theorem test_illegal_opcode :
    (after (step (st (xs 0 0) 5 0xF4 0 [0x00]))).map (fun t => (t.run, t.pc, t.fault)) =
      some (.faulted, 5, ⟨.illegalInstruction, 5, .none, 0x00⟩) ∧
    (after (step (st (xs 0 0) 5 0xF4 0 [0xA1]))).map (fun t => t.fault.value) = some 0xA1 := by decide

/-- V5, V6, V7, V8. -/
theorem test_fetch_at_the_top :
    (after (step (st (xs 0 0) 256 0xF4 0 []))).map (fun t => t.fault) = some ⟨.outOfRange, 256, .memory, 256⟩ ∧
    (after (step (st (xs 0 0) 254 0xF4 0 [0x01]))).map (fun t => t.fault) =
      some ⟨.outOfRange, 254, .memory, 256⟩ ∧
    (after (stepWith false (st (xs 0 0) 255 0xF4 0 [0x01]))).map (fun t => (t.run, t.pc)) =
      some (.halted, 256) ∧
    (after (stepWith false (st (xs 0 0) 254 0xF4 0 [0xFF]))).map (fun t => t.fault) =
      some ⟨.illegalInstruction, 254, .none, 0xFF⟩ := by decide

/-- V9, V10, V11. -/
theorem test_operands_at_the_top :
    (after (stepWith false (st (xs 0 0) 254 0xF4 0 [0x47, 0x00]))).map (fun t => (t.run, t.pc)) =
      some (.running, 256) ∧
    (after (stepWith false (st (xs 0 0) 255 0xF4 0 [0x47]))).map (fun t => t.fault) =
      some ⟨.outOfRange, 255, .memory, 256⟩ ∧
    (after (step (st (xs 0 0) 253 0xF4 0 [0x82, 0x01, 0x07]))).map (fun t => (t.x[1], t.pc)) =
      some (7#8, 256) := by decide

/-- HALTED and FAULTED have no step (spec/40_fetch_decode_execute.md R90). -/
theorem test_no_step_after_the_end :
    step { s0 with run := .halted } = .fault .halted ∧ step { s0 with run := .faulted } = .fault .faulted :=
  ⟨rfl, rfl⟩

/-- What the host asks: the first step after reset runs the word's instruction. -/
theorem test_withFetchWord :
    after (step (State.reset.withFetchWord 24 0x080082)) =
      after (exec (.loadImmediate 0 8) (State.reset.withFetchWord 24 0x080082)) ∧
    (after (step (State.reset.withFetchWord 8 0x01))).map (fun t => (t.run, t.pc)) = some (.halted, 1) := by decide

/-- V95 and P1's first line: a program file of one HALT, from the file to the first step. -/
theorem test_start :
    (start (some ['0', '0', '0', '0', '0', '0', '0', '1', ' ', '#', 'H', '\n']) Draws.named).toOption.map
      (fun s => (s.mem.read 0, s.pc, s.sp, s.x[7], s.run)) = some (0x01#8, 0, 0xF4, 0xF4#8, .running) := by
  decide

/-- spec/70_reset_and_hazards.md R233, V96: a value over 255, and a line that is no binary literal. -/
theorem test_load_errors :
    imageBytes [1, 256] = .error .valueTooLarge ∧
    loadFile (some ['2', '\n']) = .error .malformedInstruction ∧ loadFile none = .error .unreadableFile := by
  refine ⟨rfl, by decide, rfl⟩

/-- spec/60_exceptions.md R214, R207: 17 shows as its digits, and the record shows only when FAULTED. -/
theorem test_observe :
    outputLines { s0 with out := [17] } = [['1', '7']] ∧ (observe s0).fault = none ∧
    (observe (afterOutOfRange s0 .memory (-1))).fault = some ⟨.outOfRange, 20, .memory, -1⟩ := by decide

/-- The canonical form: writing what an unlisted cell reads as takes the entry out. -/
theorem test_memory_write :
    Memory.write [(3, 7), (9, 1)] 5 2 = [(3, 7), (5, 2), (9, 1)] ∧ Memory.write [(3, 7), (9, 1)] 3 0 = [(9, 1)] ∧
    Memory.wf [(3, 7), (9, 1)] = true ∧ Memory.wf [(9, 1), (3, 7)] = false ∧ Memory.wf [(3, 0)] = false := by
  decide

/-! ### Witnesses: states and operands that meet the hypotheses of the obligations, clause by clause -/

theorem witness_HaltStopsTheMachine :
    (st (xs 0 0) 255 0xF4 0 [0x01]).run = .running ∧ (st (xs 0 0) 255 0xF4 0 [0x01]).mem.read 255 = 0x01#8 ∧
    (st (xs 0 0) 254 0xF4 0 [0x01]).mem.read 254 = 0x01#8 ∧ (∃ t, exec .halt s0 = .next t) :=
  ⟨by decide, by decide, by decide, _, rfl⟩

/-- The last register, the first that does not exist, and an instruction at 253. -/
theorem witness_LoadImmediateWritesTheConstant :
    (7 : Byte).toNat < 8 ∧ 8 ≤ (8 : Byte).toNat ∧
    ∃ t, exec (.loadImmediate 7 1) { s0 with pc := 253 } = .next t ∧ t.pc = 256 ∧ s0.run = .running :=
  ⟨by decide, by decide, _, rfl, rfl, rfl⟩

theorem witness_PrintEmitsTheRegister :
    (7 : Byte).toNat < 8 ∧ 8 ≤ (8 : Byte).toNat ∧ ∃ t, exec (.print 7) s0 = .next t ∧ t.out = [0xF4#8] :=
  ⟨by decide, by decide, _, rfl, rfl⟩

theorem witness_AddWrapsModulo256 :
    (0 : Byte).toNat < 8 ∧ (7 : Byte).toNat < 8 ∧ 8 ≤ (255 : Byte).toNat ∧ ∃ t, exec (.add 0 7) s0 = .next t :=
  ⟨by decide, by decide, by decide, _, rfl⟩

theorem witness_MulKeepsTheLowByte :
    (0 : Byte).toNat < 8 ∧ (7 : Byte).toNat < 8 ∧ 8 ≤ (255 : Byte).toNat ∧ ∃ t, exec (.mul 0 7) s0 = .next t :=
  ⟨by decide, by decide, by decide, _, rfl⟩

theorem witness_CmpSetsTheFlags :
    (0 : Byte).toNat < 8 ∧ (7 : Byte).toNat < 8 ∧ 8 ≤ (8 : Byte).toNat ∧ ∃ t, exec (.cmp 0 7) s0 = .next t :=
  ⟨by decide, by decide, by decide, _, rfl⟩

/-- The lowest and the highest stack pointer that a push runs with, and the one below. -/
theorem witness_PushStoresBelowTheTop :
    (∃ t, exec (.push 7) { s0 with sp := 1 } = .next t ∧ t.sp = 0) ∧
    (∃ t, exec (.push 7) sTop = .next t ∧ t.sp = 255) ∧ sFull.sp = 0 ∧ 8 ≤ (8 : Byte).toNat :=
  ⟨⟨_, rfl, rfl⟩, ⟨_, rfl, rfl⟩, rfl, by decide⟩

theorem witness_PopLoadsTheTop :
    (∃ t, exec (.pop 7) { s0 with sp := 255 } = .next t ∧ t.sp = 256) ∧ sTop.sp = 256 ∧ 8 ≤ (8 : Byte).toNat :=
  ⟨⟨_, rfl, rfl⟩, rfl, by decide⟩

theorem witness_CallPushesTheReturnAddress :
    (∃ t, exec (.call 1) { s0 with sp := 1 } = .next t ∧ t.sp = 0) ∧ sFull.sp = 0 ∧ 8 ≤ (8 : Byte).toNat ∧
    (st (xs 0 1) 254 0xF4 0 [0x50, 0x01]).mem.read 254 = 0x50#8 ∧
    (st (xs 0 1) 254 0xF4 0 [0x50, 0x01]).mem.read 255 = 1#8 :=
  ⟨⟨_, rfl, rfl⟩, rfl, by decide, by decide, by decide⟩

theorem witness_ReturnJumpsToTheTop :
    (∃ t, exec .ret { s0 with sp := 255 } = .next t ∧ t.sp = 256) ∧ sTop.sp = 256 ∧
    (st (xs 0 0) 255 0xF4 0 [0x11]).mem.read 255 = 0x11#8 :=
  ⟨⟨_, rfl, rfl⟩, rfl, by decide⟩

/-- A jump, a jump to itself, and a jump to 255. -/
theorem witness_JumpGoesToTheRegister :
    (∃ t, exec (.jump 7) s0 = .next t ∧ t.pc = 0xF4) ∧ 8 ≤ (8 : Byte).toNat ∧
    (s0.x[0].toNat = ({ s0 with pc := 5 } : State).pc) ∧
    254 ≤ (st (xs 255 0) 0 0xF4 0 []).x[0].toNat ∧ (st (xs 255 0) 0 0xF4 0 []).run = .running :=
  ⟨⟨_, rfl, rfl⟩, by decide, by decide, by decide, rfl⟩

theorem witness_JumpIfEqualTestsTheEqualBit :
    ({ s0 with fl := 0xFD } : State).fl.getLsbD 0 = true ∧ ({ s0 with fl := 0xFE } : State).fl.getLsbD 0 = false ∧
    (7 : Byte).toNat < 8 ∧ 8 ≤ (8 : Byte).toNat := by decide

theorem witness_JumpIfNotEqualTestsTheEqualBit :
    ({ s0 with fl := 0xFE } : State).fl.getLsbD 0 = false ∧ ({ s0 with fl := 0xFD } : State).fl.getLsbD 0 = true ∧
    (7 : Byte).toNat < 8 ∧ 8 ≤ (8 : Byte).toNat := by decide

theorem witness_GeneralRegistersFrame :
    (∃ t, exec (.add 0 1) s0 = .next t) ∧ writtenReg (.add 0 1) ≠ some (BitVec.ofNat 8 1) ∧
    (∃ t, exec (.push 7) s0 = .next t) ∧ writtenReg (.push 7) ≠ some (BitVec.ofNat 8 7) :=
  ⟨⟨_, rfl⟩, by decide, ⟨_, rfl⟩, by decide⟩

theorem witness_OnlyCmpWritesTheFlags :
    (∀ a b, Instr.add 0 1 ≠ .cmp a b) ∧ (∃ t, exec (.add 0 1) s0 = .next t) ∧
    (0 : Byte).toNat < 8 ∧ (7 : Byte).toNat < 8 := by
  exact ⟨fun _ _ h => (nomatch h), ⟨_, rfl⟩, by decide, by decide⟩

theorem witness_MemoryFrame :
    (∃ t, exec (.push 0) s0 = .next t) ∧ ((0xF4 : Nat) : Int) ≠ (s0.sp : Int) - 1 ∧
    (∃ t, exec (.pop 0) s0 = .next t) ∧ pushes (.pop 0) = false :=
  ⟨⟨_, rfl⟩, by decide, ⟨_, rfl⟩, rfl⟩

theorem witness_StackPointerIsSeparate :
    pushes (.loadImmediate 7 0) = false ∧ pops (.loadImmediate 7 0) = false ∧
    (∃ t, exec (.loadImmediate 7 0) s0 = .next t) ∧ pushes (.call 1) = true ∧ (∃ t, exec (.call 1) s0 = .next t) ∧
    (∃ t, exec (.pop 7) s0 = .next t) :=
  ⟨rfl, rfl, ⟨_, rfl⟩, rfl, ⟨_, rfl⟩, ⟨_, rfl⟩⟩

theorem witness_RunAndFaultRecordFrame :
    (∃ t, exec .halt s0 = .next t) ∧ ∃ t, exec (.print 8) s0 = .next t :=
  ⟨⟨_, rfl⟩, ⟨_, rfl⟩⟩

theorem witness_NextPcOfEveryInstruction :
    s0.run = .running ∧ (∃ t, exec (.jumpIfEqual 9) s0 = .next t ∧ t.run ≠ .faulted) ∧
    (∃ t, exec (.jumpIfNotEqual 9) s0 = .next t ∧ t.run = .faulted) ∧ (∃ t, exec .ret s0 = .next t) :=
  ⟨rfl, ⟨_, rfl, by decide⟩, ⟨_, rfl, by decide⟩, ⟨_, rfl⟩⟩

theorem witness_OnlyTheEqualBitIsTested :
    (0xFE : Byte).getLsbD 0 = s0.fl.getLsbD 0 ∧ (∃ t, exec (.jumpIfEqual 1) s0 = .next t) ∧
    (∃ t, exec (.add 0 1) s0 = .next t) ∧ (∀ r, Instr.add 0 1 ≠ .jumpIfEqual r) ∧
    (∀ r, Instr.add 0 1 ≠ .jumpIfNotEqual r) ∧ (∀ a b, Instr.add 0 1 ≠ .cmp a b) := by
  refine ⟨by decide, ⟨_, rfl⟩, ⟨_, rfl⟩, ?_, ?_, ?_⟩ <;> intros <;> intro h <;> cases h

theorem witness_RegisterSevenIsDecoupledFromTheStackPointer :
    (∃ s, resetWith [1] Draws.named = .ok s) ∧ writtenReg (.loadImmediate 7 9) = some 7 ∧
    (∃ t, exec (.loadImmediate 7 9) s0 = .next t) ∧ pops (.pop 0) = true ∧ Instr.pop 0 ≠ .pop 7 ∧
    (∃ t, exec (.pop 0) s0 = .next t) ∧ s0.sp ≤ 255 :=
  ⟨⟨_, rfl⟩, by decide, ⟨_, rfl⟩, rfl, by decide, ⟨_, rfl⟩, by decide⟩

theorem witness_FlagFieldsAfterCompare : (7 : Byte).toNat < 8 ∧ (0 : Byte).toNat < 8 := by decide

theorem witness_WhichFaultsAnInstructionRaises :
    (∃ t, exec (.push 0) sFull = .next t ∧ t.run = .faulted) ∧ (∃ t, exec (.pop 8) sTop = .next t ∧ t.run = .faulted) ∧
    (∃ t, exec (.cmp 7 8) s0 = .next t ∧ t.run = .faulted) ∧ sFull.run = .running ∧ sTop.sp ≤ 256 :=
  ⟨⟨_, rfl, by decide⟩, ⟨_, rfl, by decide⟩, ⟨_, rfl, by decide⟩, rfl, by decide⟩

theorem witness_WellFormedInstructionsAreSafe :
    (Instr.push 7).wellFormed = true ∧ Safe s0 ∧ 1 ≤ ({ s0 with sp := 1 } : State).sp ∧
    ({ s0 with sp := 255 } : State).sp ≤ 255 := by decide

theorem witness_StepRunsTheDecodedInstruction :
    decode (st (xs 0 0) 253 0xF4 0 [0x82, 0x01, 0x07]).codeBytes = .ok (.loadImmediate 1 7, []) ∧
    decode (st (xs 0 0) 255 0xF4 0 [0x01]).codeBytes = .ok (.halt, []) ∧
    (st (xs 0 0) 255 0xF4 0 [0x01]).run = .running :=
  ⟨by decide, by decide, rfl⟩

theorem witness_FetchWordRunsNext :
    decodeTableWord 16 0x0747 = some (.print 7) ∧ ({ s0 with pc := 253 } : State).pc ≤ 253 ∧ s0.run = .running := by
  decide

theorem witness_FirstFailingCheckIsTheFault :
    255 < (st (xs 0 0) 256 0xF4 0 []).pc ∧ s0.mem.read s0.pc ∉ legalOpcodes ∧
    decode (st (xs 0 0) 255 0xF4 0 [0x47]).codeBytes = .error (.missingOperand 0x47) ∧
    decode (st (xs 0 0) 254 0xF4 0 [0x82, 0]).codeBytes = .error (.missingOperand 0x82) ∧
    (Instr.push 9).regOperands = 9 :: [] ∧ 8 ≤ (9 : Byte).toNat ∧ (Instr.cmp 7 8).regOperands = [7, 8] ∧
    pushes (.call 7) = true ∧ (Instr.call 7).wellFormed = true ∧ sFull.sp = 0 ∧
    pops (.pop 7) = true ∧ (Instr.pop 7).wellFormed = true ∧ sTop.sp = 256 := by decide

theorem witness_FaultsArePrecise :
    (∃ t, stepWith true s0 = .next t ∧ t.run = .faulted) ∧
    (∃ t, stepWith false { s0 with pc := 256 } = .next t ∧ t.run = .faulted) :=
  ⟨⟨_, rfl, by decide⟩, ⟨_, rfl, by decide⟩⟩

theorem witness_OnlyRunningTakesSteps :
    s0.run = .running ∧ ({ s0 with run := .halted } : State).run ≠ .running ∧
    ∃ s, resetWith [] Draws.named = .ok s :=
  ⟨rfl, by decide, _, rfl⟩

theorem witness_RunEndsByHaltOrFault :
    (∃ t, stepWith true (st (xs 0 0) 10 0xF4 0 [0x01]) = .next t ∧ t.run = .halted) ∧
    (∃ t, stepWith true (st (xs 0 0) 10 0xF4 0 [0x54, 0]) = .next t ∧ t.run = .running) :=
  ⟨⟨_, rfl, by decide⟩, ⟨_, rfl, by decide⟩⟩

theorem witness_FaultRecordIsUnobservableWhileRunning :
    (∃ s, resetWith [] Draws.named = .ok s) ∧ s0.run ≠ .faulted ∧
    (∃ t, stepWith true (st (xs 0 0) 10 0xF4 0 [0x54, 0]) = .next t ∧ t.run ≠ .faulted) :=
  ⟨⟨_, rfl⟩, by decide, ⟨_, rfl, by decide⟩⟩

theorem witness_OnlyPrintAppendsToTheOutput :
    (∃ s, resetWith [] Draws.named = .ok s) ∧ ∃ t, stepWith true (st (xs 17 0) 9 0xF4 0 [0x47, 0]) = .next t :=
  ⟨⟨_, rfl⟩, ⟨_, rfl⟩⟩

/-- A PUSH that changes the byte at sp - 1, at the lowest and at the highest stack pointer of the clause. -/
theorem witness_OnlyPushAndCallStore :
    (∃ t, stepWith true (st (xs 5 0) 9 0xF4 0 [0x45, 0]) = .next t ∧
      t.mem.read 0xF3 ≠ (st (xs 5 0) 9 0xF4 0 [0x45, 0]).mem.read 0xF3) ∧
    (∃ t, exec (.push 0) { s0 with sp := 1 } = .next t ∧ Safe t ∧ t.mem.read 0 ∉ legalOpcodes) ∧
    (∃ t, exec (.push 0) (st (xs 0x01 0) 20 254 0 []) = .next t ∧ Safe t ∧ t.mem.read 253 ∈ legalOpcodes) :=
  ⟨⟨_, rfl, by decide⟩, ⟨_, rfl, by decide, by decide⟩, ⟨_, rfl, by decide, by decide⟩⟩

/-- JUMP at 253 to 253. -/
theorem witness_JumpToItselfRunsForever :
    (st (xs 253 0) 253 0xF4 0 [0x54, 0]).mem.read 253 = 0x54#8 ∧
    (st (xs 253 0) 253 0xF4 0 [0x54, 0]).mem.read 254 = BitVec.ofNat 8 0 ∧
    (st (xs 253 0) 253 0xF4 0 [0x54, 0]).x[0].toNat = 253 ∧
    (st (xs 253 0) 253 0xF4 0 [0x54, 0]).run = .running := by decide

theorem witness_PushThenPopRoundTrips :
    (7 : Byte).toNat < 8 ∧ 1 ≤ ({ s0 with sp := 1 } : State).sp ∧ sTop.sp ≤ 256 := by decide

theorem witness_ReturnResumesAfterTheCall :
    (7 : Byte).toNat < 8 ∧ 1 ≤ ({ s0 with sp := 1 } : State).sp ∧ sTop.sp ≤ 256 ∧
    ({ s0 with pc := 253 } : State).pc ≤ 253 := by decide

/-- 122 pushes and 122 calls, so that both kinds of push occur. -/
def pushesAndCalls : List Instr := (List.replicate 122 [Instr.push 7, Instr.call 0]).flatten

theorem witness_StackHoldsTwoHundredFortyFour :
    (∃ s, resetWith [] Draws.named = .ok s) ∧
    (∀ i ∈ pushesAndCalls, pushes i = true ∧ i.wellFormed = true) ∧ pushesAndCalls.length = 244 ∧
    pushesAndCalls[0]? = some (.push 7) ∧ pushesAndCalls[243]? = some (.call 0) := by
  refine ⟨⟨_, rfl⟩, fun i h => ?_, by rw [pushesAndCalls, List.length_flatten, List.map_replicate]; rfl, rfl, rfl⟩
  obtain ⟨l, hl, hi⟩ := List.mem_flatten.mp h
  rw [List.eq_of_mem_replicate hl] at hi
  rcases List.mem_pair.mp hi with rfl | rfl <;> decide

/-- A running state, one with pc and sp at 256, and a FAULTED one meet the invariant. -/
theorem witness_EveryStepKeepsTheInvariant :
    Inv s0 ∧ Inv { sTop with pc := 256 } ∧ Inv (afterOutOfRange sFull .memory (-1)) ∧
    (∃ t, step s0 = .next t) ∧ ∃ t, stepWith false { sTop with pc := 256 } = .next t :=
  ⟨by decide, by decide, by decide, ⟨_, rfl⟩, ⟨_, rfl⟩⟩

theorem witness_EveryResetMeetsTheInvariant : ∃ s, resetWith [0x01, 255] Draws.named = .ok s := ⟨_, rfl⟩

theorem witness_ResetSetsEveryField :
    (List.replicate 256 255).length ≤ 256 ∧ (∀ v ∈ List.replicate 256 255, v ≤ 255) ∧ ([] : List Nat).length ≤ 0 :=
  ⟨by rw [List.length_replicate], fun v h => by rw [List.eq_of_mem_replicate h], by rw [List.length_nil]⟩

/-- 257 values; a value 256; a line that is no binary literal. -/
theorem witness_BadImagesAreRefused :
    256 < (List.replicate 257 0).length ∧ 256 ∈ [1, 256] ∧ 255 < 256 ∧
    ['2'] ∈ fileLines ['2', '\n'] ∧ lineToken ['2'] ≠ [] ∧ binaryValue 0 (lineToken ['2']) = none ∧
    loadFile (some ['2', '\n']) = .error .malformedInstruction :=
  ⟨by rw [List.length_replicate]; omega, by decide, by omega, by decide, by decide, by decide, by decide⟩

theorem witness_EqualMemoriesAreEqualData :
    Memory.wf [(0, 1), (255, 2)] = true ∧ Memory.wf (Memory.write [(255, 2)] 0 1) = true := by decide

theorem witness_ProgramFileRoundTrips : ∀ l ∈ [((0x82 : Byte), ['L', 'D', '#', ' '])], '\n' ∉ l.2 := by decide

theorem witness_ExitStatusTellsTheEnd :
    Config.HostParams.Legal ⟨1, 2, 0⟩ ∧ s0.run = .running ∧ ({ s0 with run := .halted } : State).run = .halted ∧
    (afterOutOfRange s0 .memory 256).fault.cause = .outOfRange ∧
    (afterIllegalInstruction s0 0).fault.cause = .illegalInstruction := by decide

theorem witness_IllegalOpcodesAreExactlyTheOthers :
    s0.run = .running ∧ s0.pc ≤ 253 ∧ s0.mem.read s0.pc ∉ legalOpcodes := by decide

end Sys2Proof.Tests
end

section
/-! Proofs of the statements about the state (spec/10_state.md). First what an instruction's effect leaves
unchanged, field by field, and how it depends on the fields it does not read; then what one step can do; then the
obligations. -/

namespace Sys2Proof.Machine

variable {i : Instr} {s t : State}

/-! ### The frame of an instruction's effect -/

/-- What an instruction that has its effect leaves unchanged, for each field but `pc`. A field that no update of the
effect touches is unchanged by computation: only the others are given when a frame is built. -/
structure Frame (i : Instr) (s t : State) : Prop where
  fault : t.fault = s.fault := by intros; rfl
  run : t.run = if i = .halt then .halted else s.run := by intros; rfl
  fl : (∀ a b, i ≠ .cmp a b) → t.fl = s.fl := by intros; rfl
  out : (∀ r, i ≠ .print r) → t.out = s.out := by intros; rfl
  mem : pushes i = false → t.mem = s.mem := by intros; rfl
  sp : pushes i = false → pops i = false → t.sp = s.sp := by intros; rfl
  x : ∀ k : Reg, writtenReg i ≠ some (BitVec.ofNat 8 k.val) → t.x[k.val] = s.x[k.val] := by intros; rfl

/-- A register read past a write through an operand byte that does not name it. -/
theorem getElem_setReg_of_ne {r : Byte} (h : r.toNat < 8) (v : Byte) (k : Reg)
    (hk : some r ≠ some (BitVec.ofNat 8 k.val)) : (s.setReg ⟨r.toNat, h⟩ v).x[k.val] = s.x[k.val] := by
  have hne : r.toNat ≠ k.val := fun e => hk (by rw [← e, BitVec.ofNat_toNat, BitVec.setWidth_eq])
  exact Vector.getElem_set_ne h k.isLt hne

/-- Every effect leaves unchanged what `Frame` says. -/
theorem Effect.frame (h : Effect i s t) : Frame i s t := by
  cases i with
  | halt => subst h; exact {}
  | loadImmediate r v => obtain ⟨hr, rfl⟩ := h; exact { x := getElem_setReg_of_ne hr v }
  | print r => obtain ⟨_, rfl⟩ := h; exact { out := fun hi => absurd rfl (hi r) }
  | add a b | mul a b => obtain ⟨ha, _, rfl⟩ := h; exact { x := getElem_setReg_of_ne ha _ }
  | cmp a b => obtain ⟨_, _, rfl⟩ := h; exact { fl := fun hi => absurd rfl (hi a b) }
  | push r | call r => obtain ⟨_, _, _, rfl⟩ := h; exact { mem := nofun, sp := nofun }
  | pop r => obtain ⟨_, hr, rfl⟩ := h; exact { sp := nofun, x := getElem_setReg_of_ne hr _ }
  | ret => obtain ⟨_, rfl⟩ := h; exact { sp := nofun }
  | jump r => obtain ⟨_, rfl⟩ := h; exact {}
  | jumpIfEqual r | jumpIfNotEqual r => obtain ⟨_, _, rfl⟩ | ⟨_, rfl⟩ := h <;> exact {}

/-- An effect faults nothing. -/
theorem Effect.run_ne_faulted (h : Effect i s t) (hs : s.run = .running) : t.run ≠ .faulted := by
  rw [h.frame.run, hs]
  split <;> decide

theorem writtenReg_eq_none_of_pushes (h : pushes i = true) : writtenReg i = none := by
  cases i with
  | push r | call r => rfl
  | _ => cases h

/-- An instruction that names no destination writes no register. -/
theorem Effect.x_eq (h : Effect i s t) (hw : writtenReg i = none) : t.x = s.x :=
  Vector.ext fun k hk => h.frame.x ⟨k, hk⟩ (by simp [hw])

theorem Effect.sp_of_pushes (h : Effect i s t) (hp : pushes i = true) : t.sp + 1 = s.sp := by
  cases i with
  | push r | call r => obtain ⟨hsp, _, _, rfl⟩ := h; exact Nat.sub_add_cancel hsp
  | _ => cases hp

theorem Effect.sp_of_pops (h : Effect i s t) (hp : pops i = true) : t.sp = s.sp + 1 := by
  cases i with
  | pop r => obtain ⟨_, _, rfl⟩ := h; rfl
  | ret => obtain ⟨_, rfl⟩ := h; rfl
  | _ => cases hp

/-- An instruction without a push and a pop leaves `sp` alone, whether it has its effect or raises. -/
theorem exec_sp_eq (hpush : pushes i = false) (hpop : pops i = false) (h : exec i s = .next t) : t.sp = s.sp := by
  obtain he | ⟨p, v, rfl, _⟩ := exec_next h
  · exact he.frame.sp hpush hpop
  · rfl

/-! ### Independence from `sp` and from the fault record -/

/-- The effect of an instruction without a push and a pop is the same whatever `sp` is. -/
theorem Effect.with_sp (h : Effect i s t) (hpush : pushes i = false) (hpop : pops i = false) (p : Nat) :
    Effect i { s with sp := p } { t with sp := p } := by
  cases i with
  | halt => subst h; rfl
  | loadImmediate r _ | print r | jump r => obtain ⟨hr, rfl⟩ := h; exact ⟨hr, rfl⟩
  | add a b | mul a b | cmp a b => obtain ⟨ha, hb, rfl⟩ := h; exact ⟨ha, hb, rfl⟩
  | push r | call r => cases hpush
  | pop r | ret => cases hpop
  | jumpIfEqual r | jumpIfNotEqual r =>
    obtain ⟨hf, hr, rfl⟩ | ⟨hf, rfl⟩ := h
    · exact .inl ⟨hf, hr, rfl⟩
    · exact .inr ⟨hf, rfl⟩

/-- The first failing check of an instruction without a push and a pop does not look at `sp`. -/
theorem Raises.with_sp {q : Space} {v : Int} (h : Raises i s q v) (hpush : pushes i = false)
    (hpop : pops i = false) (p : Nat) : Raises i { s with sp := p } q v := by
  cases i with
  | push r | call r => cases hpush
  | pop r | ret => cases hpop
  | _ => exact h

theorem exec_with_sp (hpush : pushes i = false) (hpop : pops i = false) (h : exec i s = .next t) (p : Nat) :
    exec i { s with sp := p } = .next { t with sp := p } := by
  obtain he | ⟨q, v, rfl, hr⟩ := exec_next h
  · exact exec_of_effect (he.with_sp hpush hpop p)
  · exact exec_of_raises (hr.with_sp hpush hpop p)

/-- No effect reads the fault record. -/
theorem Effect.with_fault (h : Effect i s t) (f : FaultRecord) :
    Effect i { s with fault := f } { t with fault := f } := by
  cases i with
  | halt => subst h; rfl
  | loadImmediate r _ | print r | jump r => obtain ⟨hr, rfl⟩ := h; exact ⟨hr, rfl⟩
  | add a b | mul a b | cmp a b => obtain ⟨ha, hb, rfl⟩ := h; exact ⟨ha, hb, rfl⟩
  | push r | call r => obtain ⟨h1, h2, hr, rfl⟩ := h; exact ⟨h1, h2, hr, rfl⟩
  | pop r => obtain ⟨h1, hr, rfl⟩ := h; exact ⟨h1, hr, rfl⟩
  | ret => obtain ⟨h1, rfl⟩ := h; exact ⟨h1, rfl⟩
  | jumpIfEqual r | jumpIfNotEqual r =>
    obtain ⟨hf, hr, rfl⟩ | ⟨hf, rfl⟩ := h
    · exact .inl ⟨hf, hr, rfl⟩
    · exact .inr ⟨hf, rfl⟩

/-- No check reads the fault record. -/
theorem Raises.with_fault {q : Space} {v : Int} (h : Raises i s q v) (f : FaultRecord) :
    Raises i { s with fault := f } q v := by
  cases i <;> exact h

/-! ### One step -/

/-- The instruction lies at `pc`: its opcode is there and its operand bytes follow (spec/30_encoding.md R86). -/
def InstrAt (i : Instr) (s : State) : Prop :=
  i.opcode = s.mem.read s.pc ∧
    i.operandBytes = (List.range (i.length - 1)).map fun n => s.mem.read (s.pc + 1 + n)

/-- What a step answers: the state of a raised fault, or the effect of the instruction at `pc`. -/
theorem stepWith_next {eager : Bool} (h : stepWith eager s = .next t) :
    (∃ c p v, t = s.raise c p v) ∨ ∃ i, InstrAt i s ∧ Effect i s t := by
  have raised {c p v} (hs : stepWith eager s = .next (s.raise c p v)) : t = s.raise c p v := by
    simpa [h] using hs
  obtain ⟨_, hs⟩ | ⟨_, _, hs⟩ | ⟨_, _, hs⟩ | ⟨i, hop, _, hargs, hs⟩ :=
    stepWith_cases eager (running_of_stepWith_next h)
  · exact .inl ⟨_, _, _, raised hs⟩
  · exact .inl ⟨_, _, _, raised hs⟩
  · exact .inl ⟨_, _, _, raised hs⟩
  · obtain he | ⟨p, v, ht, _⟩ := exec_next (hs.symm.trans h)
    · exact .inr ⟨i, ⟨hop, hargs⟩, he⟩
    · exact .inl ⟨_, p, v, ht⟩

/-- A RUNNING state has a next state. -/
theorem exists_stepWith_next (eager : Bool) (h : s.run = .running) : ∃ t, stepWith eager s = .next t := by
  obtain ⟨_, hs⟩ | ⟨_, _, hs⟩ | ⟨_, _, hs⟩ | ⟨i, _, _, _, hs⟩ := stepWith_cases eager h
  · exact ⟨_, hs⟩
  · exact ⟨_, hs⟩
  · exact ⟨_, hs⟩
  · obtain ⟨t, ht, _⟩ | ⟨p, v, ht, _⟩ := exec_cases i s
    · exact ⟨t, hs.trans ht⟩
    · exact ⟨_, hs.trans ht⟩

/-- A step does not read the fault record: from any other record it ends in the same raised fault, or in the same
state, not FAULTED, with the other record kept. -/
theorem stepWith_with_fault {eager : Bool} (h : stepWith eager s = .next t) (f : FaultRecord) :
    stepWith eager { s with fault := f } = .next t ∨
      (t.run ≠ .faulted ∧ stepWith eager { s with fault := f } = .next { t with fault := f }) := by
  have hrun := running_of_stepWith_next h
  rw [stepWith_running eager hrun] at h
  rw [stepWith_running eager (s := { s with fault := f }) hrun]
  obtain ⟨i, hf, hf'⟩ | ⟨c, p, v, hf, hf'⟩ := fetch_agrees eager (s := s) (s' := { s with fault := f }) rfl rfl
  · rw [hf] at h
    rw [hf']
    obtain he | ⟨p, v, rfl, hr⟩ := exec_next h
    · exact .inr ⟨he.run_ne_faulted hrun, exec_of_effect (he.with_fault f)⟩
    · exact .inl (exec_of_raises (hr.with_fault f))
  · rw [hf] at h
    cases h
    exact .inl (hf' _)

/-! ### Reset -/

/-- A reset that is not refused gives the reset state of some bytes. -/
theorem exists_resetState_of_resetWith {image : List Nat} {d : Draws} (h : resetWith image d = .ok s) :
    ∃ bs, s = resetState bs d := by
  unfold resetWith at h
  split at h
  · next bs _ => cases h; exact ⟨bs, rfl⟩
  · cases h

/-! ### The obligations -/

/-- Settles O15: the frame of the effect for the other twelve, and the flags of a compare depend on the two
registers alone. -/
theorem onlyCmpWritesTheFlags : Obligations.OnlyCmpWritesTheFlags := by
  refine ⟨fun i s t hi h => ?_, fun a b s f ha hb => ?_⟩
  · obtain he | ⟨p, v, rfl, _⟩ := exec_next h
    · exact he.frame.fl hi
    · rfl
  · rw [exec_of_effect (i := .cmp a b) (s := s) ⟨ha, hb, rfl⟩]
    exact exec_of_effect ⟨ha, hb, rfl⟩

/-- Settles O17, clause by clause from what the effect does to `sp` and to the registers; a raised fault changes
neither. -/
theorem stackPointerIsSeparate : Obligations.StackPointerIsSeparate := by
  refine ⟨fun i s t hpush hpop h => ⟨exec_sp_eq hpush hpop h, exec_with_sp hpush hpop h⟩,
    fun i s t h => ?_, fun i s t hi h => ?_, fun r s t h k => ?_⟩
  · obtain he | ⟨p, v, rfl, _⟩ := exec_next h
    · cases hpush : pushes i with
      | true => exact .inr (.inr (he.sp_of_pushes hpush))
      | false =>
        cases hpop : pops i with
        | true => exact .inr (.inl (he.sp_of_pops hpop))
        | false => exact .inl (he.frame.sp hpush hpop)
    · exact .inl rfl
  · have hw : writtenReg i = none := by
      obtain hp | rfl := hi
      · exact writtenReg_eq_none_of_pushes hp
      · rfl
    obtain he | ⟨p, v, rfl, _⟩ := exec_next h
    · exact he.x_eq hw
    · rfl
  · obtain ⟨_, hr, rfl⟩ | ⟨p, v, rfl, _⟩ := exec_next h
    · by_cases hk : r.toNat = k.val
      · exact .inr (by simp [← hk])
      · exact .inl (by simp [hk])
    · exact .inl rfl

/-- Settles O19: a raised fault keeps `pc`, and each effect writes it as its row of the table says. -/
theorem nextPcOfEveryInstruction : Obligations.NextPcOfEveryInstruction := by
  intro i s t hs h
  obtain he | ⟨p, v, rfl, _⟩ := exec_next h
  · rw [if_neg (he.run_ne_faulted hs)]
    cases i with
    | halt => subst he; rfl
    | loadImmediate r _ | print r => obtain ⟨_, rfl⟩ := he; rfl
    | add a b | mul a b | cmp a b => obtain ⟨_, _, rfl⟩ := he; rfl
    | push r => obtain ⟨_, _, _, rfl⟩ := he; rfl
    | pop r => obtain ⟨_, _, rfl⟩ := he; rfl
    | call r => obtain ⟨_, _, hr, rfl⟩ := he; exact ⟨hr, rfl, Memory.read_write_same _ _ _⟩
    | ret => obtain ⟨_, rfl⟩ := he; rfl
    | jump r => obtain ⟨hr, rfl⟩ := he; exact ⟨hr, rfl⟩
    | jumpIfEqual r | jumpIfNotEqual r =>
      obtain ⟨hf, hr, rfl⟩ | ⟨hf, rfl⟩ := he <;> rw [flagE] at hf
      · simp only [hf, ↓reduceIte, Bool.false_eq_true]; exact ⟨hr, rfl⟩
      · simp only [hf, ↓reduceIte, Bool.false_eq_true]; rfl
  · exact rfl

/-- Settles O21: R7 at reset is the last of the pushed registers; afterwards the frame keeps `sp` when no pop writes
R7, and R7 when no destination names it. -/
theorem registerSevenIsDecoupledFromTheStackPointer : Obligations.RegisterSevenIsDecoupledFromTheStackPointer := by
  refine ⟨fun image d s h => ?_, fun i s t hw hpop h => ?_, fun i s t hi h7 h => ?_, fun s hsp => ?_⟩
  · obtain ⟨bs, rfl⟩ := exists_resetState_of_resetWith h
    exact Vector.getElem_push_eq
  · have hpush : pushes i = false := Bool.eq_false_iff.mpr fun hp => by
      simp [writtenReg_eq_none_of_pushes hp] at hw
    exact exec_sp_eq hpush hpop h
  · have hw : writtenReg i ≠ some 7 := by
      cases i with
      | push r | call r | ret => nofun
      | pop r => exact fun e => h7 (congrArg Instr.pop (Option.some.inj e))
      | _ => simp [pushes, pops] at hi
    obtain he | ⟨p, v, rfl, _⟩ := exec_next h
    · exact he.frame.x 7 hw
    · rfl
  · refine ⟨_, exec_of_effect ⟨hsp, by decide, rfl⟩, ?_, rfl⟩
    simp

/-- Settles O30: every case of a RUNNING state's step answers a next state, and only a RUNNING state has one. -/
theorem onlyRunningTakesSteps : Obligations.OnlyRunningTakesSteps := by
  refine ⟨rfl, rfl, rfl, fun eager s h => exists_stepWith_next eager h,
    fun eager s t hs h => hs (running_of_stepWith_next h), fun image d s h => ?_⟩
  obtain ⟨bs, rfl⟩ := exists_resetState_of_resetWith h
  rfl

/-- Settles O32: a step that does not fault is an effect, which neither writes nor reads the record. -/
theorem faultRecordIsUnobservableWhileRunning : Obligations.FaultRecordIsUnobservableWhileRunning := by
  refine ⟨fun image d s h => ?_, fun eager s t h ht => ?_, fun s f hs => ?_, fun eager s f t h => ?_⟩
  · obtain ⟨bs, rfl⟩ := exists_resetState_of_resetWith h
    rfl
  · obtain ⟨c, p, v, rfl⟩ | ⟨i, _, he⟩ := stepWith_next h
    · exact absurd rfl ht
    · exact he.frame.fault
  · simp [observe, hs]
  · obtain h' | ⟨ht, h'⟩ := stepWith_with_fault h f
    · exact ⟨t, h', rfl, rfl⟩
    · exact ⟨_, h', by simp [observe, ht], rfl⟩

/-- Settles O33: a step is a raised fault or the effect of the instruction at `pc`, and of these only the effect of
`PRINT` writes `out`. -/
theorem onlyPrintAppendsToTheOutput : Obligations.OnlyPrintAppendsToTheOutput := by
  refine ⟨fun image d s h => ?_, fun eager s t h => ?_⟩
  · obtain ⟨bs, rfl⟩ := exists_resetState_of_resetWith h
    rfl
  · obtain ⟨c, p, v, rfl⟩ | ⟨i, ⟨hop, hargs⟩, he⟩ := stepWith_next h
    · exact .inl rfl
    · by_cases hi : ∃ r, i = .print r
      · obtain ⟨r, rfl⟩ := hi
        obtain ⟨hr, rfl⟩ := he
        have hread : s.mem.read (s.pc + 1) = r := (List.head_eq_of_cons_eq hargs).symm
        exact .inr ⟨⟨r.toNat, hr⟩, hop.symm, by simp [hread], rfl⟩
      · exact .inl (he.frame.out fun r hr => hi ⟨r, hr⟩)

end Sys2Proof.Machine
end

section
/-! Proof of the statement about illegal opcodes (spec/30_encoding.md R78): which bytes have no row in the opcode
table, that the decoder rejects exactly these as illegal, and what a step does when it fetches one. -/

namespace Sys2Proof

/-- The opcodes that spec/30_encoding.md R78 lists are those of the table of R76, in another order. -/
theorem opcodeTable_perm_legalOpcodes : (opcodeTable.map Prod.fst).Perm Machine.legalOpcodes := by decide

/-- The bytes without a row are those that are not one of the 13 opcodes. -/
theorem rowOf_eq_none_iff {op : Byte} : rowOf op = none ↔ op ∉ Machine.legalOpcodes := by
  rw [← opcodeTable_perm_legalOpcodes.mem_iff, rowOf, List.lookup_eq_none_iff]
  simp only [List.mem_map, not_exists, not_and, bne_iff_ne, ne_comm]

/-- Once a row is selected, the opcode is not rejected any more. -/
theorem decodeOperands_ne_illegalOpcode (op op' : Byte) (row : Row) (rest : List Byte) :
    decodeOperands op row rest ≠ .error (.illegalOpcode op') := by
  unfold decodeOperands
  split <;> nofun

/-- The first byte is rejected as illegal exactly when the table has no row for it. -/
theorem decode_cons_eq_illegalOpcode_iff {op : Byte} {rest : List Byte} :
    decode (op :: rest) = .error (.illegalOpcode op) ↔ rowOf op = none := by
  rw [decode]
  cases rowOf op with
  | none => exact iff_of_true rfl rfl
  | some row => exact iff_of_false (decodeOperands_ne_illegalOpcode op op row rest) nofun

end Sys2Proof

namespace Sys2Proof.Machine

/-- A step that fetches a byte without a row raises IllegalInstruction (spec/60_exceptions.md R203). -/
theorem stepWith_of_rowOf_eq_none {eager : Bool} {s : State} (hrun : s.run = .running) (hpc : s.pc ≤ 255)
    (heager : eager = true → s.pc ≤ 253) (hrow : rowOf (s.mem.read s.pc) = none) :
    stepWith eager s = .next (afterIllegalInstruction s (s.mem.read s.pc)) := by
  rw [stepWith_running eager hrun, fetch_ok _ hpc heager, hrow]
  rfl

/-- Settles O47: the illegal bytes are those without a row in the opcode table, to the decoder and to the step
alike, and the listed 13 are the table's opcodes. -/
theorem illegalOpcodesAreExactlyTheOthers : Obligations.IllegalOpcodesAreExactlyTheOthers :=
  ⟨fun _ _ => decode_cons_eq_illegalOpcode_iff.trans rowOf_eq_none_iff,
    opcodeTable_perm_legalOpcodes.length_eq.symm.trans opcodeTable_length,
    opcodeTable_perm_legalOpcodes.nodup_iff.mp opcodeTable_nodup,
    fun _ _ hrun hpc heager hop => stepWith_of_rowOf_eq_none hrun hpc heager (rowOf_eq_none_iff.mpr hop)⟩

end Sys2Proof.Machine
end

section
/-! Proofs of the statements about `HALT` and `LOAD_IMMEDIATE` (spec/41_halt_load_print.md). First the decoder on an
encoded instruction and the steps whose outcome `pc` and the opcode settle; then the obligations. -/

namespace Sys2Proof

/-- An instruction's opcode selects its own row of the table. -/
theorem decode_opcode_cons (i : Instr) (rest : List Byte) :
    decode (i.opcode :: rest) = decodeOperands i.opcode i.row rest := by
  rw [decode, rowOf_opcode]

/-- The decoder reads an encoded instruction back and leaves the bytes after it. -/
theorem decode_encode_append (i : Instr) (rest : List Byte) : decode (encode i ++ rest) = .ok (i, rest) := by
  rw [encode, List.cons_append, decode_opcode_cons]
  cases i <;> rfl

end Sys2Proof

namespace Sys2Proof.Machine

variable {s : State} {eager : Bool}

/-- The fetch fault past the last cell (spec/40_fetch_decode_execute.md R91). -/
theorem stepWith_of_pc_eq_256 (hrun : s.run = .running) (hpc : s.pc = 256) :
    stepWith eager s = .next (afterOutOfRange s .memory 256) := by
  rw [stepWith_running eager hrun, fetch, hpc]
  exact memRead_bad s _ (by decide)

/-- The eager operand check fails at 254 and 255, whatever the opcode (spec/40_fetch_decode_execute.md R92). -/
theorem stepWith_true_of_pc_ge_254 (hrun : s.run = .running) (hpc : s.pc = 254 ∨ s.pc = 255) :
    stepWith true s = .next (afterOutOfRange s .memory 256) := by
  rw [stepWith_running true hrun, fetch, memRead_ok _ _ (by omega), eagerCheck_bad _ hpc, State.raise_outOfRange]

/-- A step that fetches the opcode of an instruction goes on to the operands of its row. -/
theorem stepWith_of_opcode {i : Instr} (hrun : s.run = .running) (hpc : s.pc ≤ 255)
    (heager : eager = true → s.pc ≤ 253) (hop : s.mem.read s.pc = i.opcode) :
    stepWith eager s = fetchOperands i.row s fun j => exec j s := by
  rw [stepWith_running eager hrun, fetch_ok _ hpc heager, hop, rowOf_opcode]

theorem exec_halt (s : State) : exec .halt s = .next { s with pc := s.pc + 1, run := .halted } :=
  exec_of_effect rfl

theorem exitStatus_of_halted (p : Config.HostParams) (h : s.run = .halted) :
    exitStatus p s = some Config.exitHalt := by
  rw [exitStatus, h]

/-- Settles O1: the effect of `HALT` in every state; at 254 and 255 the eager check decides between it and the fetch
fault; a HALTED state has no step and its exit status is that of a halt. -/
theorem haltStopsTheMachine : Obligations.HaltStopsTheMachine := by
  refine ⟨decode_encode_append .halt, exec_halt, fun s hrun hpc _ => stepWith_true_of_pc_ge_254 hrun hpc,
    fun s hrun hpc hop => ?_, fun s t h => ?_⟩
  · calc stepWith false s
      _ = exec .halt s := stepWith_of_opcode (i := .halt) hrun hpc.le nofun hop
      _ = .next { s with pc := 256, run := .halted } := by rw [exec_halt, hpc]
  · obtain rfl | ⟨_, _, _, hr⟩ := exec_next h
    · exact ⟨fun eager u hu => (nomatch running_of_stepWith_next hu), fun p => exitStatus_of_halted p rfl⟩
    · exact hr.elim

/-- Settles O2: the register operand exists and the effect follows, or it does not and is what the instruction
raises; from 253 the effect leaves `pc` past the last cell. -/
theorem loadImmediateWritesTheConstant : Obligations.LoadImmediateWritesTheConstant := by
  refine fun r imm => ⟨decode_encode_append (.loadImmediate r imm), fun s hr => exec_of_effect ⟨hr, rfl⟩,
    fun s hr => exec_of_raises ⟨rfl, rfl, hr⟩, fun eager s t hrun hpc hr h => ?_⟩
  obtain ⟨_, rfl⟩ | ⟨_, _, _, _, _, hbad⟩ := exec_next h
  · have hpc' : s.pc + 3 = 256 := by omega
    exact ⟨hpc', stepWith_of_pc_eq_256 hrun hpc'⟩
  · exact absurd hr hbad.not_gt

end Sys2Proof.Machine
end

section
/-! Proofs of the statements about `ADD`, `MUL` and `CMP` (spec/42_alu.md). First the value that the ALU puts out, then
the obligations: a pair of existing registers has the instruction's effect, and the first byte that names no register
is what it raises. -/

namespace Sys2Proof.Machine

/-- A result kept modulo 256 is the byte's value (spec/42_alu.md R136). -/
theorem toNat_ofNat_mod_256 (n : Nat) : (BitVec.ofNat 8 (n % 256)).toNat = n % 256 :=
  (BitVec.toNat_ofNat _ _).trans (Nat.mod_mod n 256)

/-- The three possible results of a compare (spec/42_alu.md R134). -/
theorem compareFlags_eq_ite (u v : Byte) :
    compareFlags u v = if u = v then 0x01#8 else if v.toNat < u.toNat then 0x02#8 else 0x00#8 := by
  unfold compareFlags
  by_cases heq : u = v
  · subst heq
    simp
  · by_cases hlt : v.toNat < u.toNat <;> simp [heq, hlt]

/-- Settles O6: the flags written are `compareFlags` of the two registers, which is one of three bytes. -/
theorem cmpSetsTheFlags : Obligations.CmpSetsTheFlags := by
  refine fun a b => ⟨decode_encode_append (.cmp a b), fun s ha hb => ?_,
    fun s ha => exec_of_raises (.inl ⟨rfl, rfl, ha⟩), fun s ha hb => exec_of_raises (.inr ⟨ha, rfl, rfl, hb⟩)⟩
  rw [← compareFlags_eq_ite]
  exact exec_of_effect ⟨ha, hb, rfl⟩

/-- Settles O4: the byte written to the first register is the sum kept modulo 256. -/
theorem addWrapsModulo256 : Obligations.AddWrapsModulo256 := fun a b =>
  ⟨decode_encode_append (.add a b),
    fun _ ha hb => ⟨_, _, exec_of_effect ⟨ha, hb, rfl⟩, rfl, toNat_ofNat_mod_256 _⟩,
    fun _ ha => exec_of_raises (.inl ⟨rfl, rfl, ha⟩), fun _ ha hb => exec_of_raises (.inr ⟨ha, rfl, rfl, hb⟩)⟩

/-- Settles O5: the byte written to the first register is the product kept modulo 256. -/
theorem mulKeepsTheLowByte : Obligations.MulKeepsTheLowByte := fun a b =>
  ⟨decode_encode_append (.mul a b),
    fun _ ha hb => ⟨_, _, exec_of_effect ⟨ha, hb, rfl⟩, rfl, toNat_ofNat_mod_256 _⟩,
    fun _ ha => exec_of_raises (.inl ⟨rfl, rfl, ha⟩), fun _ ha hb => exec_of_raises (.inr ⟨ha, rfl, rfl, hb⟩)⟩

end Sys2Proof.Machine
end

section
/-! Proofs of the statements about `PUSH`, `POP`, `CALL` and `RETURN` (spec/43_stack_and_subroutine.md). First the
instructions that push: which they are, when they have their effect, and what it stores; then the single instructions;
then a sequence of pushes, one byte further down each. -/

namespace Sys2Proof.Machine

variable {i : Instr} {s t : State} {r : Byte}

/-! ### The instructions that push -/

/-- A well-formed instruction that pushes is a `PUSH` or a `CALL` on an existing register. -/
theorem eq_push_or_call_of_pushes (hp : pushes i = true) (hw : i.wellFormed = true) :
    ∃ r : Byte, r.toNat < 8 ∧ (i = .push r ∨ i = .call r) := by
  cases i with
  | push r | call r =>
    have hr : r.toNat ≤ 7 := by simpa [Instr.wellFormed, Instr.regOperands, validReg] using hw
    exact ⟨r, Nat.lt_succ_of_le hr, by simp⟩
  | _ => cases hp

/-- There is room for a push as long as `sp` is not 0 (spec/10_state.md R34). -/
theorem exists_effect_of_pushes (hp : pushes i = true) (hw : i.wellFormed = true) (h1 : 1 ≤ s.sp)
    (h256 : s.sp ≤ 256) : ∃ t, Effect i s t := by
  obtain ⟨r, hr, rfl | rfl⟩ := eq_push_or_call_of_pushes hp hw
  · exact ⟨_, h1, h256, hr, rfl⟩
  · exact ⟨_, h1, h256, hr, rfl⟩

/-- With `sp` at 0 the push address is -1, which `PUSH` and `CALL` raise once their register exists. -/
theorem exec_push_or_call_of_sp_eq_zero (hi : i = .push r ∨ i = .call r) (hr : r.toNat < 8) (hsp : s.sp = 0) :
    exec i s = .next (afterOutOfRange s .memory (-1)) := by
  obtain rfl | rfl := hi
  · exact exec_of_raises (.inr ⟨hr, rfl, by omega, .inl hsp⟩)
  · exact exec_of_raises (.inr ⟨hr, rfl, by omega, .inl hsp⟩)

/-- The new top of the stack after `PUSH(r)` is the register's byte (spec/43_stack_and_subroutine.md R150). -/
theorem Effect.read_sp_of_push (h : Effect (.push r) s t) (hr : r.toNat < 8) :
    t.mem.read t.sp = s.x[r.toNat]'hr := by
  obtain ⟨_, _, _, rfl⟩ := h
  exact (Memory.read_write_same _ _ _).trans (by simp [State.reg])

/-- The new top of the stack after `CALL(r)` is the return address (spec/43_stack_and_subroutine.md R154). -/
theorem Effect.read_sp_of_call (h : Effect (.call r) s t) : t.mem.read t.sp = BitVec.ofNat 8 (s.pc + 2) := by
  obtain ⟨_, _, _, rfl⟩ := h
  exact Memory.read_write_same _ _ _

theorem Effect.toNat_read_sp_of_call (h : Effect (.call r) s t) : (t.mem.read t.sp).toNat = (s.pc + 2) % 256 :=
  (congrArg BitVec.toNat h.read_sp_of_call).trans (BitVec.toNat_ofNat _ _)

/-- The one byte that an effect can store is the one at the new `sp` (spec/20_memory.md R51). -/
theorem Effect.read_of_ne_sp (h : Effect i s t) {a : Nat} (ha : a ≠ t.sp) : t.mem.read a = s.mem.read a := by
  cases hp : pushes i with
  | false => rw [h.frame.mem hp]
  | true =>
    cases i with
    | push r | call r => obtain ⟨_, _, _, rfl⟩ := h; exact Memory.read_write_other _ _ _ _ ha
    | _ => cases hp

theorem Effect.run_of_pushes (h : Effect i s t) (hp : pushes i = true) : t.run = s.run := by
  rw [h.frame.run, if_neg]
  rintro rfl
  cases hp

/-! ### The single instructions -/

/-- Settles O7: the effect of `PUSH` where there is room, and what it raises on a byte that names no register or with
the stack full. -/
theorem pushStoresBelowTheTop : Obligations.PushStoresBelowTheTop := by
  refine fun r => ⟨decode_encode_append (.push r), fun s hr h1 h256 => ?_,
    fun s hr => exec_of_raises (.inl ⟨rfl, rfl, hr⟩), fun s => exec_push_or_call_of_sp_eq_zero (.inl rfl)⟩
  have he : Effect (.push r) s _ := ⟨h1, h256, hr, rfl⟩
  exact ⟨_, exec_of_effect he, rfl, he.read_sp_of_push hr, fun a ha => he.read_of_ne_sp ha⟩

/-- Settles O8: the effect of `POP` with a byte on the stack, and what it raises on a byte that names no register or
with the stack empty. -/
theorem popLoadsTheTop : Obligations.PopLoadsTheTop := fun _ =>
  ⟨decode_encode_append (.pop _), fun _ hr hsp => exec_of_effect ⟨hsp, hr, rfl⟩,
    fun _ hr => exec_of_raises (.inl ⟨rfl, rfl, hr⟩),
    fun _ hr hsp => exec_of_raises (.inr ⟨hr, rfl, by omega, by omega⟩)⟩

/-- Without the eager check a `CALL` at 254 runs: its operand is the last cell. -/
theorem stepWith_false_of_call_at_254 (hrun : s.run = .running) (hpc : s.pc = 254)
    (hop : s.mem.read 254 = 0x50#8) (hr : s.mem.read 255 = r) : stepWith false s = exec (.call r) s := by
  calc stepWith false s
    _ = operandByte 1 s fun r => exec (.call r) s :=
      stepWith_of_opcode (i := .call r) hrun (by omega) nofun (by rw [hpc]; exact hop)
    _ = exec (.call r) s := by rw [operandByte_ok _ (by omega), hpc, hr]

/-- Settles O9: as for `PUSH`, with the return address as the byte stored; the one pushed at 254 is 256, kept
modulo 256. -/
theorem callPushesTheReturnAddress : Obligations.CallPushesTheReturnAddress := by
  refine fun r => ⟨decode_encode_append (.call r), fun s hr h1 h256 => ?_,
    fun s hr => exec_of_raises (.inl ⟨rfl, rfl, hr⟩), fun s => exec_push_or_call_of_sp_eq_zero (.inr rfl),
    fun s hrun hpc _ => stepWith_true_of_pc_ge_254 hrun hpc, fun s hrun hpc hop hreg hr h1 h256 => ?_⟩
  · have he : Effect (.call r) s _ := ⟨h1, h256, hr, rfl⟩
    exact ⟨_, exec_of_effect he, rfl, he.toNat_read_sp_of_call, fun a ha => he.read_of_ne_sp ha⟩
  · have he : Effect (.call r) s _ := ⟨h1, h256, hr, rfl⟩
    refine ⟨_, (stepWith_false_of_call_at_254 hrun hpc hop hreg).trans (exec_of_effect he), ?_⟩
    rw [he.read_sp_of_call, hpc]
    rfl

/-- Settles O10: the effect of `RETURN` with a byte on the stack, what it raises with the stack empty, and the eager
check at 254 and 255. -/
theorem returnJumpsToTheTop : Obligations.ReturnJumpsToTheTop :=
  ⟨decode_encode_append .ret, fun _ hsp => exec_of_effect ⟨hsp, rfl⟩,
    fun _ hsp => exec_of_raises ⟨rfl, by omega, by omega⟩,
    fun _ hrun hpc _ => stepWith_true_of_pc_ge_254 hrun hpc⟩

/-! ### A sequence of pushes -/

theorem execAll_cons_of_next (is : List Instr) (h : exec i s = .next t) :
    execAll (i :: is) s = execAll is t := by
  rw [execAll, h]

theorem execAll_append_of_next {is : List Instr} (js : List Instr) (h : execAll is s = .next t) :
    execAll (is ++ js) s = execAll js t := by
  induction is generalizing s with
  | nil => cases h; rfl
  | cons i is ih =>
    rw [List.cons_append, execAll]
    rw [execAll] at h
    cases hi : exec i s with
    | next s' => rw [hi] at h; exact ih h
    | fault r => rw [hi] at h; cases h
    | refused r => rw [hi] at h; cases h

/-- As many pushes as `sp` has room for all complete, each moving `sp` down by one. -/
theorem execAll_of_pushes {is : List Instr} (hp : ∀ i ∈ is, pushes i = true ∧ i.wellFormed = true)
    (hlen : is.length ≤ s.sp) (h256 : s.sp ≤ 256) :
    ∃ t, execAll is s = .next t ∧ t.sp + is.length = s.sp ∧ t.run = s.run := by
  induction is generalizing s with
  | nil => exact ⟨s, rfl, rfl, rfl⟩
  | cons i is ih =>
    obtain ⟨⟨hpush, hwf⟩, hrest⟩ := List.forall_mem_cons.mp hp
    rw [List.length_cons] at hlen ⊢
    obtain ⟨u, hu⟩ := exists_effect_of_pushes hpush hwf (s := s) (by omega) h256
    have hsp := hu.sp_of_pushes hpush
    obtain ⟨t, ht, htsp, hrun⟩ := ih hrest (s := u) (by omega) (by omega)
    exact ⟨t, (execAll_cons_of_next is (exec_of_effect hu)).trans ht, by omega,
      hrun.trans (hu.run_of_pushes hpush)⟩

/-- The k-th of a sequence of pushes has its effect on the state that the ones before it leave. -/
theorem execAll_take_of_pushes {is : List Instr} (hp : ∀ i ∈ is, pushes i = true ∧ i.wellFormed = true)
    (hlen : is.length ≤ s.sp) (h256 : s.sp ≤ 256) {k : Nat} (hk : k < is.length) :
    ∃ u w, execAll (is.take k) s = .next u ∧ execAll (is.take (k + 1)) s = .next w ∧ Effect is[k] u w ∧
      w.sp + (k + 1) = s.sp := by
  obtain ⟨u, hu, husp, _⟩ := execAll_of_pushes (is := is.take k) (fun i hi => hp i (List.mem_of_mem_take hi))
    ((List.length_take_le' _ _).trans hlen) h256
  rw [List.length_take_of_le hk.le] at husp
  obtain ⟨hpush, hwf⟩ := hp is[k] (List.getElem_mem hk)
  obtain ⟨w, hw⟩ := exists_effect_of_pushes hpush hwf (s := u) (by omega) (by omega)
  have hwsp := hw.sp_of_pushes hpush
  refine ⟨u, w, hu, ?_, hw, by omega⟩
  rw [List.take_succ_eq_append_getElem hk, execAll_append_of_next _ hu]
  exact execAll_cons_of_next [] (exec_of_effect hw)

/-- Settles O38: 244 pushes are as many as the `sp` of reset has room for; each stores what its effect says at the new
`sp`, and the next one finds `sp` at 0. -/
theorem stackHoldsTwoHundredFortyFour : Obligations.StackHoldsTwoHundredFortyFour := by
  intro image d s is hreset hp hlen
  obtain ⟨bs, rfl⟩ := exists_resetState_of_resetWith hreset
  have hsp : (resetState bs d).sp = 244 := rfl
  obtain ⟨t, ht, htsp, hrun⟩ := execAll_of_pushes hp (s := resetState bs d) (by omega) (by omega)
  have ht0 : t.sp = 0 := by omega
  refine ⟨t, ht, ht0, hrun, fun k hk => ?_, fun j hpush hwf => ?_⟩
  · obtain ⟨u, w, hu, hw, he, hwsp⟩ :=
      execAll_take_of_pushes hp (s := resetState bs d) (by omega) (by omega) (hlen.symm ▸ hk)
    have hwk : w.sp = 0xF3 - k := by omega
    refine ⟨u, w, hu, hw, hwk, ?_⟩
    rw [← hwk]
    refine ⟨fun r hr hkr => ?_, fun r hkr => ?_, fun a ha => he.read_of_ne_sp ha⟩
    · obtain ⟨_, hpush⟩ := List.getElem?_eq_some_iff.mp hkr
      rw [hpush] at he
      exact he.read_sp_of_push hr
    · obtain ⟨_, hcall⟩ := List.getElem?_eq_some_iff.mp hkr
      rw [hcall] at he
      exact he.toNat_read_sp_of_call
  · obtain ⟨r, hr, hj⟩ := eq_push_or_call_of_pushes hpush hwf
    exact exec_push_or_call_of_sp_eq_zero hj hr ht0

end Sys2Proof.Machine
end

section
/-! Proofs of the statements about `JUMP`, `JUMP_IF_EQUAL` and `JUMP_IF_NOT_EQUAL` (spec/44_jumps.md). First how every
instruction depends on the flags, then the three jumps: each is its effect, or the fault of the register that a taken
jump checks. -/

namespace Sys2Proof.Machine

variable {i : Instr} {s t : State} {f : Byte}

/-! ### Independence from the flags -/

/-- The effect of an instruction other than `CMP` is the same under other flags, which it keeps, if a conditional jump
finds the equal bit as it was. -/
theorem Effect.with_fl (h : Effect i s t) (hcmp : ∀ a b, i ≠ .cmp a b)
    (hf : ∀ r, i = .jumpIfEqual r ∨ i = .jumpIfNotEqual r → flagE f = flagE s.fl) :
    Effect i { s with fl := f } { t with fl := f } := by
  cases i with
  | halt => subst h; rfl
  | loadImmediate r _ | print r | jump r => obtain ⟨hr, rfl⟩ := h; exact ⟨hr, rfl⟩
  | add a b | mul a b => obtain ⟨ha, hb, rfl⟩ := h; exact ⟨ha, hb, rfl⟩
  | cmp a b => exact absurd rfl (hcmp a b)
  | push r | call r => obtain ⟨h1, h256, hr, rfl⟩ := h; exact ⟨h1, h256, hr, rfl⟩
  | pop r => obtain ⟨hsp, hr, rfl⟩ := h; exact ⟨hsp, hr, rfl⟩
  | ret => obtain ⟨hsp, rfl⟩ := h; exact ⟨hsp, rfl⟩
  | jumpIfEqual r | jumpIfNotEqual r =>
    have hE : flagE f = flagE s.fl := hf r (by simp)
    obtain ⟨hs, hr, rfl⟩ | ⟨hs, rfl⟩ := h
    · exact .inl ⟨hE.trans hs, hr, rfl⟩
    · exact .inr ⟨hE.trans hs, rfl⟩

/-- Of the flags, the first failing check depends on the equal bit alone, and only in a conditional jump. -/
theorem Raises.with_fl {p : Space} {v : Int} (h : Raises i s p v)
    (hf : ∀ r, i = .jumpIfEqual r ∨ i = .jumpIfNotEqual r → flagE f = flagE s.fl) :
    Raises i { s with fl := f } p v := by
  cases i with
  | jumpIfEqual r | jumpIfNotEqual r =>
    obtain ⟨hs, hbad⟩ := h
    exact ⟨(hf r (by simp)).trans hs, hbad⟩
  | _ => exact h

/-- An instruction other than `CMP` runs alike under other flags, if a conditional jump finds the equal bit as it
was. -/
theorem exec_with_fl (h : exec i s = .next t) (hcmp : ∀ a b, i ≠ .cmp a b)
    (hf : ∀ r, i = .jumpIfEqual r ∨ i = .jumpIfNotEqual r → flagE f = flagE s.fl) :
    exec i { s with fl := f } = .next { t with fl := f } := by
  obtain he | ⟨p, v, rfl, hr⟩ := exec_next h
  · exact exec_of_effect (he.with_fl hcmp hf)
  · exact exec_of_raises (hr.with_fl hf)

/-- Settles O20: an instruction runs alike under other flags if the equal bit agrees, and without that condition if it
is no conditional jump. -/
theorem onlyTheEqualBitIsTested : Obligations.OnlyTheEqualBitIsTested :=
  ⟨fun _ _ _ hcmp hE _ h => exec_with_fl h hcmp fun _ _ => hE,
    fun _ _ _ hje hjne hcmp _ h => exec_with_fl h hcmp fun r hi =>
      hi.elim (fun hr => absurd hr (hje r)) (fun hr => absurd hr (hjne r))⟩

/-! ### The single instructions -/

theorem exec_jump {r : Byte} (s : State) (hr : r.toNat < 8) :
    exec (.jump r) s = .next { s with pc := (s.x[r.toNat]'hr).toNat } :=
  exec_of_effect ⟨hr, rfl⟩

/-- Settles O11: the effect of `JUMP`, which is the state itself when the target is the `pc` it has, and what it raises
on a byte that names no register; at a target of 254 or 255 the eager check fails. -/
theorem jumpGoesToTheRegister : Obligations.JumpGoesToTheRegister := by
  refine fun r => ⟨decode_encode_append (.jump r), fun s hr => exec_jump s hr,
    fun s hr => exec_of_raises ⟨rfl, rfl, hr⟩, fun s hr hself => ?_, fun s hr hrun htop => ?_⟩
  · rw [exec_jump s hr, hself]
  · have hlt : (s.x[r.toNat]'hr).toNat < 256 := BitVec.isLt _
    exact ⟨_, exec_jump s hr, stepWith_true_of_pc_ge_254 hrun (by simp only; omega)⟩

/-- Settles O12: with the equal bit set the jump is taken and its register checked, with it clear neither. -/
theorem jumpIfEqualTestsTheEqualBit : Obligations.JumpIfEqualTestsTheEqualBit := fun r =>
  ⟨decode_encode_append (.jumpIfEqual r), fun _ hr hE => exec_of_effect (.inl ⟨hE, hr, rfl⟩),
    fun _ hr hE => exec_of_raises ⟨hE, rfl, rfl, hr⟩, fun _ hE => exec_of_effect (.inr ⟨hE, rfl⟩)⟩

/-- Settles O13: with the equal bit clear the jump is taken and its register checked, with it set neither. -/
theorem jumpIfNotEqualTestsTheEqualBit : Obligations.JumpIfNotEqualTestsTheEqualBit := fun r =>
  ⟨decode_encode_append (.jumpIfNotEqual r), fun _ hr hE => exec_of_effect (.inl ⟨hE, hr, rfl⟩),
    fun _ hr hE => exec_of_raises ⟨hE, rfl, rfl, hr⟩, fun _ hE => exec_of_effect (.inr ⟨hE, rfl⟩)⟩

end Sys2Proof.Machine
end

section
/-! Proof of the statement about the order of the checks (spec/60_exceptions.md R208). First the checks before the
execute phase: `pc` itself, and the operand bytes that memory does not hold; then what the execute phase raises, by the
operand bytes of the instruction; then the obligation. -/

namespace Sys2Proof.Machine

variable {i : Instr} {s : State}

/-! ### Before the execute phase -/

/-- The check of `pc` fails before any other (spec/40_fetch_decode_execute.md R91). -/
theorem stepWith_of_pc_gt_255 (eager : Bool) (hrun : s.run = .running) (hpc : 255 < s.pc) :
    stepWith eager s = .next (afterOutOfRange s .memory (s.pc : Int)) :=
  (stepWith_running eager hrun).trans (memRead_bad s _ (by omega))

/-- The bytes of the cells from `pc` up, as long as they exist, are what a fetch can take first. -/
theorem codeBytes_eq_append {n : Nat} (hn : n ≤ 3) (hend : s.pc + n ≤ 256) :
    ∃ rest, s.codeBytes = (List.range n).map (fun k => s.mem.read (s.pc + k)) ++ rest := by
  have hcells : [s.pc, s.pc + 1, s.pc + 2] =
      (List.range n).map (s.pc + ·) ++ ((List.range (3 - n)).map (n + ·)).map (s.pc + ·) := by
    rw [← List.map_append, ← List.range_add, Nat.add_sub_cancel' hn]
    rfl
  have hin : ∀ a ∈ (List.range n).map (s.pc + ·), decide (a < 256) = true := by
    simp only [List.mem_map, List.mem_range, decide_eq_true_eq]
    omega
  rw [State.codeBytes, hcells, List.filter_append, List.filter_eq_self.mpr hin, List.map_append, List.map_map]
  exact ⟨_, rfl⟩

theorem length_pos_and_le_three (i : Instr) : 1 ≤ i.length ∧ i.length ≤ 3 := by
  cases i <;> simp [Instr.length]

/-- The encoding of an instruction at `pc` is the bytes of the cells it takes up. -/
theorem InstrAt.encode_eq (h : InstrAt i s) :
    encode i = (List.range i.length).map fun k => s.mem.read (s.pc + k) := by
  obtain ⟨hop, hargs⟩ := h
  rw [← Nat.sub_add_cancel (length_pos_and_le_three i).1, List.range_succ_eq_map, List.map_cons, List.map_map,
    encode, hop, hargs]
  simp [Function.comp_def, Nat.add_assoc, Nat.add_comm 1]

/-- A legal opcode whose operand bytes are not all in memory raises the first address past it
(spec/40_fetch_decode_execute.md R94), under the eager check too: of the cases of a step, the others decode to an
instruction or to an illegal opcode. -/
theorem stepWith_of_missingOperand {op : Byte} (eager : Bool) (hrun : s.run = .running) (hpc : s.pc ≤ 255)
    (hd : decode s.codeBytes = .error (.missingOperand op)) :
    stepWith eager s = .next (afterOutOfRange s .memory 256) := by
  obtain ⟨hpc', _⟩ | ⟨_, _, hs⟩ | ⟨_, hrow, _⟩ | ⟨i, hop, hend, hargs, _⟩ := stepWith_cases eager hrun
  · exact absurd hpc hpc'.not_ge
  · exact hs
  · obtain ⟨rest, hrest⟩ := codeBytes_eq_append (s := s) (n := 1) (by omega) (by omega)
    have hill : decode s.codeBytes = .error (.illegalOpcode (s.mem.read s.pc)) := by
      rw [hrest]
      exact decode_cons_eq_illegalOpcode_iff.mpr hrow
    cases hill.symm.trans hd
  · obtain ⟨rest, hrest⟩ := codeBytes_eq_append (length_pos_and_le_three i).2 hend
    have hok : decode s.codeBytes = .ok (i, rest) := by
      rw [hrest, ← InstrAt.encode_eq ⟨hop, hargs⟩, decode_encode_append]
    cases hok.symm.trans hd

/-! ### In the execute phase -/

/-- The first register operand is checked before the second and before the stack address; a conditional jump checks
its own only when it is taken. -/
theorem raises_of_first_regOperand {r : Byte} {rest : List Byte} (hi : i.regOperands = r :: rest) (hr : 8 ≤ r.toNat)
    (he : ∀ r', i = .jumpIfEqual r' → flagE s.fl = true)
    (hne : ∀ r', i = .jumpIfNotEqual r' → flagE s.fl = false) : Raises i s .register (r.toNat : Int) := by
  have hbad : BadReg r .register (r.toNat : Int) := ⟨rfl, rfl, hr⟩
  cases i with
  | halt | ret => cases hi
  | loadImmediate _ _ | print _ | jump _ => cases hi; exact hbad
  | add _ _ | mul _ _ | cmp _ _ | push _ | pop _ | call _ => cases hi; exact .inl hbad
  | jumpIfEqual _ => cases hi; exact ⟨he _ rfl, hbad⟩
  | jumpIfNotEqual _ => cases hi; exact ⟨hne _ rfl, hbad⟩

theorem raises_of_second_regOperand {a b : Byte} (hi : i.regOperands = [a, b]) (ha : a.toNat < 8)
    (hb : 8 ≤ b.toNat) : Raises i s .register (b.toNat : Int) := by
  cases i with
  | add _ _ | mul _ _ | cmp _ _ => cases hi; exact .inr ⟨ha, rfl, rfl, hb⟩
  | _ => cases hi

/-- With the stack empty, the pop address is past memory, which `POP` raises once its register exists. -/
theorem raises_of_pops (hp : pops i = true) (hw : i.wellFormed = true) (hsp : s.sp = 256) :
    Raises i s .memory 256 := by
  cases i with
  | pop r =>
    have hr : r.toNat ≤ 7 := by simpa [Instr.wellFormed, Instr.regOperands, validReg] using hw
    exact .inr ⟨by omega, rfl, by omega, by omega⟩
  | ret => exact ⟨rfl, by omega, by omega⟩
  | _ => cases hp

/-! ### The obligation -/

/-- Settles O28: the checks of a step before the execute phase, then those of the instruction, each as the first that
fails. -/
theorem firstFailingCheckIsTheFault : Obligations.FirstFailingCheckIsTheFault := by
  refine ⟨fun eager s hrun hpc => stepWith_of_pc_gt_255 eager hrun hpc,
    fun s hrun hpc => stepWith_true_of_pc_ge_254 hrun hpc,
    fun eager s hrun hpc heager hop => stepWith_of_rowOf_eq_none hrun hpc heager (rowOf_eq_none_iff.mpr hop),
    fun s op hrun hpc hd => stepWith_of_missingOperand false hrun hpc hd,
    fun i s r rest hi hr he hne => exec_of_raises (raises_of_first_regOperand hi hr he hne),
    fun i s a b hi ha hb => exec_of_raises (raises_of_second_regOperand hi ha hb),
    fun i s hp hw hsp => ?_,
    fun i s hp hw hsp => exec_of_raises (raises_of_pops hp hw hsp)⟩
  obtain ⟨r, hr, hi⟩ := eq_push_or_call_of_pushes hp hw
  exact exec_push_or_call_of_sp_eq_zero hi hr hsp

end Sys2Proof.Machine
end

section
/-! Proofs of the statements about reset and the hazards (spec/70_reset_and_hazards.md). First the reset transition on
an image that the memory can hold, cell by cell; then stores: which instruction makes one and where, and the fetch of
a step at any address that passes the eager check; each part ends with its obligation. -/

namespace Sys2Proof.Machine

/-! ### Reset -/

/-- An image of values that all fit a byte is taken value by value (spec/70_reset_and_hazards.md R232). -/
theorem imageBytes_of_le {image : List Nat} (h : ∀ v ∈ image, v ≤ 255) :
    imageBytes image = .ok (image.map (BitVec.ofNat 8)) := by
  induction image with
  | nil => rfl
  | cons v rest ih =>
    obtain ⟨hv, hrest⟩ := List.forall_mem_cons.mp h
    rw [imageBytes, if_neg hv.not_gt, ih hrest]
    rfl

/-- An image that the memory can hold is accepted (spec/70_reset_and_hazards.md R233). -/
theorem resetWith_of_le {image : List Nat} (d : Draws) (hlen : image.length ≤ 256) (h : ∀ v ∈ image, v ≤ 255) :
    resetWith image d = .ok (resetState (image.map (BitVec.ofNat 8)) d) := by
  rw [resetWith, checkImage, if_neg hlen.not_gt, imageBytes_of_le h]

/-- The memory at reset, as the bytes it is made from. -/
theorem read_resetState (bs : List Byte) (d : Draws) {n : Nat}
    (h : n < (bs ++ d.memInit.toList.drop bs.length).length) :
    (resetState bs d).mem.read n = (bs ++ d.memInit.toList.drop bs.length)[n] := by
  rw [← Memory.read_ofBytes 0 n _ h, Nat.zero_add]
  rfl

theorem read_resetState_of_lt {bs : List Byte} (d : Draws) {n : Nat} (h : n < bs.length) :
    (resetState bs d).mem.read n = bs[n] := by
  rw [read_resetState bs d (by rw [List.length_append]; omega), List.getElem_append_left h]

theorem read_resetState_of_ge {bs : List Byte} (d : Draws) {n : Nat} (hn : n < 256) (h : bs.length ≤ n) :
    (resetState bs d).mem.read n = d.memInit[n] := by
  rw [read_resetState bs d (by rw [List.length_append, List.length_drop, Vector.length_toList]; omega),
    List.getElem_append_right h]
  simp [Nat.add_sub_cancel' h]

/-- Settles O42: the image is accepted, and the reset state reads as the image's bytes, then the drawn ones; R7 is
pushed behind the seven drawn registers, and the other fields are as given. -/
theorem resetSetsEveryField : Obligations.ResetSetsEveryField := by
  intro image d hlen hbyte
  refine ⟨_, resetWith_of_le d hlen hbyte, fun n hn => ?_, fun n hn hge => ?_, fun k hk => ?_,
    Vector.getElem_push_eq, rfl, rfl, rfl, rfl, rfl, rfl⟩
  · have hv : image[n] ≤ 255 := hbyte _ (List.getElem_mem hn)
    rw [read_resetState_of_lt d (by simpa using hn), List.getElem_map, BitVec.toNat_ofNat]
    exact Nat.mod_eq_of_lt (by omega)
  · exact read_resetState_of_ge d hn (by simpa using hge)
  · exact Vector.getElem_push_lt hk

/-! ### Stores and the next fetch -/

variable {i : Instr} {s t : State}

/-- An effect that changes a byte is a push, and the byte is the new top of the stack. -/
theorem Effect.pushes_of_read_ne (h : Effect i s t) {a : Nat} (ha : t.mem.read a ≠ s.mem.read a) :
    pushes i = true ∧ t.sp = a := by
  refine ⟨Bool.of_not_eq_false fun hp => ha ?_, by_contra fun hsp => ha (h.read_of_ne_sp (Ne.symm hsp))⟩
  rw [h.frame.mem hp]

theorem opcode_of_pushes (hp : pushes i = true) : i.opcode = 0x45#8 ∨ i.opcode = 0x50#8 := by
  cases i with
  | push r => exact .inl rfl
  | call r => exact .inr rfl
  | _ => cases hp

/-- A push that does not fault leaves the run state as it was. -/
theorem run_of_exec_pushes (hp : pushes i = true) (h : exec i s = .next t) (ht : Safe t) : t.run = s.run := by
  obtain he | ⟨p, v, rfl, _⟩ := exec_next h
  · exact he.run_of_pushes hp
  · exact absurd rfl ht

/-- The decoder finds the instruction that lies at `pc`. -/
theorem InstrAt.decode_codeBytes (h : InstrAt i s) (hend : s.pc + i.length ≤ 256) :
    ∃ rest, decode s.codeBytes = .ok (i, rest) := by
  obtain ⟨rest, hrest⟩ := codeBytes_eq_append (length_pos_and_le_three i).2 hend
  exact ⟨rest, by rw [hrest, ← h.encode_eq, decode_encode_append]⟩

/-- Where the eager check passes, a step that fetches a legal opcode runs an instruction with that opcode: of the
cases of a step, the others need a higher `pc` or an illegal opcode. -/
theorem stepWith_of_mem_legalOpcodes (eager : Bool) (hrun : s.run = .running) (hpc : s.pc ≤ 253)
    (hop : s.mem.read s.pc ∈ legalOpcodes) :
    ∃ j rest, decode s.codeBytes = .ok (j, rest) ∧ j.opcode = s.mem.read s.pc ∧ stepWith eager s = exec j s := by
  obtain ⟨hpc', _⟩ | ⟨hpc', _⟩ | ⟨_, hrow, _⟩ | ⟨j, hj, hend, hargs, hs⟩ := stepWith_cases eager hrun
  · omega
  · omega
  · exact absurd hop (rowOf_eq_none_iff.mp hrow)
  · obtain ⟨rest, hd⟩ := InstrAt.decode_codeBytes ⟨hj, hargs⟩ hend
    exact ⟨j, rest, hd, hj, hs⟩

/-- Settles O34: a step that changes a byte is the effect of a push at `pc`; the state after a push is RUNNING, and a
fetch from the memory it left finds the stored byte, legal or not. -/
theorem onlyPushAndCallStore : Obligations.OnlyPushAndCallStore := by
  refine ⟨fun eager s t a h ha => ?_, fun i s t hp hs h1 h254 h ht u hu => ?_⟩
  · obtain ⟨c, p, v, rfl⟩ | ⟨i, ⟨hop, _⟩, he⟩ := stepWith_next h
    · exact absurd rfl ha
    · obtain ⟨hp, rfl⟩ := he.pushes_of_read_ne ha
      exact ⟨hop ▸ opcode_of_pushes hp, he.sp_of_pushes hp, rfl⟩
  · have hrun : u.run = .running := by rw [hu]; exact (run_of_exec_pushes hp h ht).trans hs
    have hpc : u.pc ≤ 253 := by rw [hu]; exact Nat.sub_le_of_le_add h254
    exact ⟨fun hop => stepWith_of_rowOf_eq_none hrun (by omega) (fun _ => hpc) (rowOf_eq_none_iff.mpr hop),
      stepWith_of_mem_legalOpcodes _ hrun hpc⟩

end Sys2Proof.Machine
end

section
/-! Proofs of the statements about every step and about reset as its start: which fault an instruction can raise
(spec/60_exceptions.md R202, R207), what an effect keeps in range, and what a step answers, each said once; then the
frames, the faults and the invariant of `Sys2Proof.Machine.Inv`. -/

namespace Sys2Proof.Machine

variable {i : Instr} {s t : State}

/-! ### What an instruction raises -/

/-- A check that fails is of a register operand or of the stack address (spec/60_exceptions.md R202). -/
theorem Raises.cases {p : Space} {v : Int} (h : Raises i s p v) :
    (∃ r ∈ i.regOperands, BadReg r p v) ∨
    (pushes i = true ∧ p = .memory ∧ v = (s.sp : Int) - 1 ∧ (s.sp = 0 ∨ 256 < s.sp)) ∨
    (pops i = true ∧ p = .memory ∧ v = (s.sp : Int) ∧ 255 < s.sp) := by
  cases i with
  | halt => exact h.elim
  | loadImmediate r _ | print r | jump r => exact .inl ⟨r, by simp [Instr.regOperands], h⟩
  | add a b | mul a b | cmp a b =>
    obtain ha | ⟨_, hb⟩ := h
    · exact .inl ⟨a, by simp [Instr.regOperands], ha⟩
    · exact .inl ⟨b, by simp [Instr.regOperands], hb⟩
  | push r | call r =>
    obtain hr | ⟨_, hsp⟩ := h
    · exact .inl ⟨r, by simp [Instr.regOperands], hr⟩
    · exact .inr (.inl ⟨rfl, hsp⟩)
  | pop r =>
    obtain hr | ⟨_, hsp⟩ := h
    · exact .inl ⟨r, by simp [Instr.regOperands], hr⟩
    · exact .inr (.inr ⟨rfl, hsp⟩)
  | ret => exact .inr (.inr ⟨rfl, h⟩)
  | jumpIfEqual r | jumpIfNotEqual r =>
    obtain ⟨_, hr⟩ := h
    exact .inl ⟨r, by simp [Instr.regOperands], hr⟩

theorem toNat_lt_of_wellFormed (hw : i.wellFormed = true) {r : Byte} (hr : r ∈ i.regOperands) : r.toNat < 8 := by
  have := List.all_eq_true.mp hw r hr
  simp only [validReg, decide_eq_true_eq] at this
  omega

/-- With every register operand existing and `sp` strictly inside memory no check fails. -/
theorem not_raises_of_wellFormed {p : Space} {v : Int} (hw : i.wellFormed = true) (h1 : 1 ≤ s.sp)
    (h255 : s.sp ≤ 255) : ¬ Raises i s p v := by
  intro h
  obtain ⟨r, hr, _, _, hbad⟩ | ⟨_, _, _, hsp⟩ | ⟨_, _, _, hsp⟩ := h.cases
  · exact absurd (toNat_lt_of_wellFormed hw hr) hbad.not_gt
  · omega
  · omega

/-- With `sp` in range, what an instruction raises makes a legal record. -/
theorem Raises.legal {p : Space} {v : Int} (h : Raises i s p v) (hsp : s.sp ≤ 256) :
    (afterOutOfRange s p v).fault.Legal s.pc := by
  refine ⟨rfl, .inr ?_⟩
  obtain ⟨r, _, hp, hv, hbad⟩ | ⟨_, hp, hv, h0⟩ | ⟨_, hp, hv, h256⟩ := h.cases
  · have hlt : r.toNat < 256 := r.isLt
    exact .inr ⟨rfl, hp, by simp only [afterOutOfRange]; omega, by simp only [afterOutOfRange]; omega⟩
  · exact .inl ⟨rfl, hp, .inl (by simp only [afterOutOfRange]; omega)⟩
  · exact .inl ⟨rfl, hp, .inr (by simp only [afterOutOfRange]; omega)⟩

/-! ### What an effect keeps -/

/-- An effect does not fault. -/
theorem Effect.safe (h : Effect i s t) (hs : Safe s) : Safe t := by
  rw [Safe, h.frame.run]
  split
  · decide
  · exact hs

/-- The new pc lies behind the instruction, or is a byte from a register or from the stack
(spec/10_state.md R29). -/
theorem Effect.pc_cases (h : Effect i s t) : t.pc = s.pc + i.length ∨ ∃ v : Byte, t.pc = v.toNat := by
  cases i with
  | halt => subst h; exact .inl rfl
  | loadImmediate r _ | print r => obtain ⟨_, rfl⟩ := h; exact .inl rfl
  | add a b | mul a b | cmp a b => obtain ⟨_, _, rfl⟩ := h; exact .inl rfl
  | push r => obtain ⟨_, _, _, rfl⟩ := h; exact .inl rfl
  | pop r => obtain ⟨_, _, rfl⟩ := h; exact .inl rfl
  | call r => obtain ⟨_, _, _, rfl⟩ := h; exact .inr ⟨_, rfl⟩
  | ret | jump r => obtain ⟨_, rfl⟩ := h; exact .inr ⟨_, rfl⟩
  | jumpIfEqual r | jumpIfNotEqual r =>
    obtain ⟨_, _, rfl⟩ | ⟨_, rfl⟩ := h
    · exact .inr ⟨_, rfl⟩
    · exact .inl rfl

theorem Effect.pc_le_256 (h : Effect i s t) (hend : s.pc + i.length ≤ 256) : t.pc ≤ 256 := by
  obtain hpc | ⟨v, hpc⟩ := h.pc_cases
  · omega
  · have hlt : v.toNat < 256 := v.isLt
    omega

theorem Effect.sp_le_255_of_pops (h : Effect i s t) (hp : pops i = true) : s.sp ≤ 255 := by
  cases i with
  | pop r | ret => exact h.1
  | _ => cases hp

theorem Effect.sp_le_256 (h : Effect i s t) (hsp : s.sp ≤ 256) : t.sp ≤ 256 := by
  cases hpush : pushes i with
  | true => have := h.sp_of_pushes hpush; omega
  | false =>
    cases hpop : pops i with
    | true => have := h.sp_of_pops hpop; have := h.sp_le_255_of_pops hpop; omega
    | false => rw [h.frame.sp hpush hpop]; exact hsp

/-- The one store, of a push, is at an address of memory. -/
theorem Effect.mem_wf (h : Effect i s t) (hm : s.mem.wf = true) : t.mem.wf = true := by
  cases hp : pushes i with
  | false => rwa [h.frame.mem hp]
  | true =>
    cases i with
    | push r | call r => obtain ⟨h1, h256, _, rfl⟩ := h; exact Memory.wf_write _ hm (by omega)
    | _ => cases hp

theorem Effect.inv (h : Effect i s t) (hend : s.pc + i.length ≤ 256) (hrun : s.run = .running) (hi : Inv s) :
    Inv t := by
  obtain ⟨_, hsp, hmem, _, hrec⟩ := hi
  have hs : Safe s := by rw [Safe, hrun]; decide
  refine ⟨h.pc_le_256 hend, h.sp_le_256 hsp, h.mem_wf hmem, fun hf => absurd hf (h.safe hs), fun _ => ?_⟩
  rw [h.frame.fault]
  exact hrec hs

/-- Entering FAULTED with a legal record keeps the invariant: nothing else changes. -/
theorem Inv.of_fault {f : FaultRecord} (hi : Inv s) (hf : f.Legal s.pc) :
    Inv { s with run := .faulted, fault := f } := by
  obtain ⟨hpc, hsp, hmem, _, _⟩ := hi
  exact ⟨hpc, hsp, hmem, fun _ => hf, fun hn => absurd rfl hn⟩

/-! ### What a step answers -/

/-- A step answers the fault of an address past memory, the fault of an illegal opcode, or what the instruction at
`pc` answers (spec/40_fetch_decode_execute.md R96). -/
theorem stepWith_next_cases {eager : Bool} (h : stepWith eager s = .next t) :
    (t = afterOutOfRange s .memory (max (s.pc : Int) 256)) ∨
    (rowOf (s.mem.read s.pc) = none ∧ t = afterIllegalInstruction s (s.mem.read s.pc)) ∨
    (∃ i, InstrAt i s ∧ s.pc + i.length ≤ 256 ∧ exec i s = .next t) := by
  have answered {u : State} (hs : stepWith eager s = .next u) : t = u := by simpa [h] using hs
  obtain ⟨hpc, hs⟩ | ⟨_, hpc, hs⟩ | ⟨_, hrow, hs⟩ | ⟨i, hop, hend, hargs, hs⟩ :=
    stepWith_cases eager (running_of_stepWith_next h)
  · exact .inl (by rw [max_eq_left (by omega)]; exact answered hs)
  · exact .inl (by rw [max_eq_right (by omega)]; exact answered hs)
  · exact .inr (.inl ⟨hrow, answered hs⟩)
  · exact .inr (.inr ⟨i, ⟨hop, hargs⟩, hend, hs.symm.trans h⟩)

/-! ### The invariant -/

/-- An instruction at `pc` keeps the invariant. -/
theorem Inv.exec_next (hi : Inv s) (hrun : s.run = .running) (hend : s.pc + i.length ≤ 256)
    (h : exec i s = .next t) : Inv t := by
  have ⟨_, hsp, _⟩ := hi
  obtain he | ⟨p, v, rfl, hr⟩ := Machine.exec_next h
  · exact he.inv hend hrun hi
  · exact hi.of_fault (hr.legal hsp)

theorem Inv.stepWith_next {eager : Bool} (hi : Inv s) (h : stepWith eager s = .next t) : Inv t := by
  obtain rfl | ⟨hrow, rfl⟩ | ⟨i, _, hend, hx⟩ := stepWith_next_cases h
  · have ⟨hpc, _⟩ := hi
    have hmax : max (s.pc : Int) 256 = 256 := by omega
    exact hi.of_fault ⟨rfl, .inr (.inl ⟨rfl, rfl, .inr hmax⟩)⟩
  · have hlt : (s.mem.read s.pc).toNat < 256 := (s.mem.read s.pc).isLt
    refine hi.of_fault ⟨rfl, .inl ⟨rfl, rfl, by simp only; omega, by simp only; omega, ?_⟩⟩
    simp [hrow]
  · exact hi.exec_next (running_of_stepWith_next h) hend hx

/-- Settles O39: a step that faults writes a legal record and nothing else, and the effect of the instruction at `pc`
keeps each part of the invariant. -/
theorem everyStepKeepsTheInvariant : Obligations.EveryStepKeepsTheInvariant :=
  ⟨fun _ _ hi h => hi.stepWith_next h, fun _ _ _ hi h => hi.stepWith_next h⟩

/-! ### The other obligations -/

/-- Settles O14: an effect writes the register of its destination operand alone, and a raised fault none. -/
theorem generalRegistersFrame : Obligations.GeneralRegistersFrame := by
  intro i s t k h hk
  obtain he | ⟨p, v, rfl, _⟩ := exec_next h
  · exact he.frame.x k hk
  · rfl

/-- Settles O16: the one byte an effect can store is at the new `sp`, which for a push is the old `sp - 1`. -/
theorem memoryFrame : Obligations.MemoryFrame := by
  intro i s t h
  obtain he | ⟨p, v, rfl, _⟩ := exec_next h
  · refine ⟨fun hp a => by rw [he.frame.mem hp], fun a ha => ?_⟩
    cases hp : pushes i with
    | false => rw [he.frame.mem hp]
    | true => have := he.sp_of_pushes hp; exact he.read_of_ne_sp (by omega)
  · exact ⟨fun _ _ => rfl, fun _ _ => rfl⟩

/-- Settles O18: the two cases are the effect and the raised fault. -/
theorem runAndFaultRecordFrame : Obligations.RunAndFaultRecordFrame := by
  intro i s t h
  obtain he | ⟨p, v, rfl, _⟩ := exec_next h
  · exact .inl ⟨he.frame.fault, he.frame.run⟩
  · exact .inr ⟨p, v, rfl⟩

/-- Settles O23: an instruction that ends FAULTED has raised its first failing check; with `sp` at most 256 the
stack address that fails is -1 or 256. -/
theorem whichFaultsAnInstructionRaises : Obligations.WhichFaultsAnInstructionRaises := by
  intro i s t hsp hrun h hf
  obtain he | ⟨p, v, rfl, hr⟩ := exec_next h
  · exact absurd hf (he.run_ne_faulted hrun)
  refine ⟨p, v, rfl, ?_⟩
  cases i with
  | halt => exact hr
  | loadImmediate r _ | print r | jump r => exact hr
  | add a b | mul a b | cmp a b =>
    obtain ⟨hp, hv, ha⟩ | ⟨ha, hp, hv, hb⟩ := hr
    · exact ⟨hp, .inl ⟨ha, hv⟩⟩
    · exact ⟨hp, .inr ⟨Nat.le_of_lt_succ ha, hb, hv⟩⟩
  | push r | call r =>
    obtain hbad | ⟨hlt, hp, hv, h0⟩ := hr
    · exact .inl hbad
    · exact .inr ⟨hp, by omega, by omega, Nat.le_of_lt_succ hlt⟩
  | pop r =>
    obtain hbad | ⟨hlt, hp, hv, h256⟩ := hr
    · exact .inl hbad
    · exact .inr ⟨hp, by omega, by omega, Nat.le_of_lt_succ hlt⟩
  | ret =>
    obtain ⟨hp, hv, h256⟩ := hr
    exact ⟨hp, by omega, by omega⟩
  | jumpIfEqual r | jumpIfNotEqual r =>
    obtain ⟨hE, hp, hv, hbad⟩ := hr
    exact ⟨hp, hv, hbad, hE⟩

/-- Settles O24: the effect and the raised fault are both next states. -/
theorem everyInstructionAnswersANextState : Obligations.EveryInstructionAnswersANextState := by
  intro i s
  obtain ⟨t, h, _⟩ | ⟨p, v, h, _⟩ := exec_cases i s
  · exact ⟨t, h⟩
  · exact ⟨_, h⟩

/-- Settles O25: no check of the instruction fails, and its effect does not fault. -/
theorem wellFormedInstructionsAreSafe : Obligations.WellFormedInstructionsAreSafe := by
  intro i s hw hs h1 h255
  obtain ⟨t, h, he⟩ | ⟨p, v, _, hr⟩ := exec_cases i s
  · exact ⟨t, h, he.safe hs⟩
  · exact absurd hr (not_raises_of_wellFormed hw h1 h255)

/-- Settles O29: in each case of a step that faults, the state is that of a raise, which records the `pc` it keeps. -/
theorem faultsArePrecise : Obligations.FaultsArePrecise := by
  intro eager s t h hf
  obtain rfl | ⟨_, rfl⟩ | ⟨i, _, _, hx⟩ := stepWith_next_cases h
  · exact ⟨rfl, rfl, nofun⟩
  · exact ⟨rfl, rfl, nofun⟩
  · obtain he | ⟨p, v, rfl, _⟩ := exec_next hx
    · exact absurd hf (he.run_ne_faulted (running_of_stepWith_next h))
    · exact ⟨rfl, rfl, nofun⟩

/-- Settles O31: a step is a fault at fetch or decode, a fault that its instruction raises, or an effect, of which
only that of `HALT` writes `run`. -/
theorem runEndsByHaltOrFault : Obligations.RunEndsByHaltOrFault := by
  intro eager s t h
  obtain rfl | ⟨hrow, rfl⟩ | ⟨i, ⟨hop, _⟩, _, hx⟩ := stepWith_next_cases h
  · exact .inr (.inr (.inr ⟨rfl, rfl⟩))
  · exact .inr (.inr (.inl ⟨rfl, rfl, rowOf_eq_none_iff.mp hrow⟩))
  · obtain he | ⟨p, v, rfl, _⟩ := exec_next hx
    · by_cases hi : i = .halt
      · subst hi
        subst he
        exact .inr (.inl ⟨rfl, hop.symm, rfl⟩)
      · refine .inl ⟨?_, he.frame.fault⟩
        rw [he.frame.run, if_neg hi]
        exact running_of_stepWith_next h
    · exact .inr (.inr (.inr ⟨rfl, rfl⟩))

end Sys2Proof.Machine
end

section
/-! Proofs of the statements about decoding and the fetch (spec/30_encoding.md, spec/40_fetch_decode_execute.md): the
decoder inverts the encoder; a step runs what the cells at `pc` decode to, be they put there by `withFetchWord` or a
jump to itself. -/

namespace Sys2Proof

/-! ### Decode and encode -/

section
variable {op : Byte} {bytes rest : List Byte} {i : Instr}

theorem decodeOperands_f1r_ok {mk : Byte → Instr} (h : decodeOperands op (.f1r mk) bytes = .ok (i, rest)) :
    ∃ r, i = mk r ∧ bytes = r :: rest := by
  match bytes with
  | [] => cases h
  | r :: _ => cases h; exact ⟨r, rfl, rfl⟩

theorem decodeOperands_f2ri_ok {mk : Byte → Byte → Instr}
    (h : decodeOperands op (.f2ri mk) bytes = .ok (i, rest)) : ∃ r imm, i = mk r imm ∧ bytes = r :: imm :: rest := by
  match bytes with
  | [] | [_] => cases h
  | r :: imm :: _ => cases h; exact ⟨r, imm, rfl, rfl⟩

theorem decodeOperands_f2rr_ok {mk : Byte → Byte → Instr}
    (h : decodeOperands op (.f2rr mk) bytes = .ok (i, rest)) : ∃ a b, i = mk a b ∧ bytes = a :: b :: rest := by
  match bytes with
  | [] | [_] => cases h
  | a :: b :: _ => cases h; exact ⟨a, b, rfl, rfl⟩

/-- What the decoder reads through an instruction's row is an instruction of that kind, on the operand bytes that
stand first. -/
theorem encode_of_decodeOperands_row {j : Instr} (h : decodeOperands op j.row bytes = .ok (i, rest)) :
    j.opcode :: bytes = encode i ++ rest := by
  cases j with
  | halt | ret => cases h; rfl
  | loadImmediate _ _ => obtain ⟨_, _, rfl, rfl⟩ := decodeOperands_f2ri_ok h; rfl
  | add _ _ | mul _ _ | cmp _ _ => obtain ⟨_, _, rfl, rfl⟩ := decodeOperands_f2rr_ok h; rfl
  | print _ | push _ | pop _ | call _ | jump _ | jumpIfEqual _ | jumpIfNotEqual _ =>
    obtain ⟨_, rfl, rfl⟩ := decodeOperands_f1r_ok h; rfl

/-- Bytes that decode begin with the encoding of what they decode to. -/
theorem encode_of_decode (h : decode bytes = .ok (i, rest)) : bytes = encode i ++ rest := by
  match bytes with
  | [] => cases h
  | op :: args =>
    rw [decode] at h
    cases hrow : rowOf op with
    | none => rw [hrow] at h; cases h
    | some row =>
      rw [hrow] at h
      obtain ⟨j, rfl, rfl⟩ := exists_instr_of_rowOf hrow
      exact encode_of_decodeOperands_row h

end

/-- Settles O46: from the bytes by the row that their opcode selects, and back by reading an encoding. -/
theorem decodeInvertsEncode : Obligations.DecodeInvertsEncode := by
  refine fun bytes i rest => ⟨encode_of_decode, ?_⟩
  rintro rfl
  exact decode_encode_append i rest

/-- Settles O48: each word is the encoding of its instruction. -/
theorem knownWordsDecode : Obligations.KnownWordsDecode :=
  ⟨decode_encode_append .halt [], decode_encode_append (.loadImmediate 0 8) [], decode_encode_append (.add 0 1) [],
    decode_encode_append (.call 1) [], decode_encode_append (.jumpIfNotEqual 3) []⟩

theorem length_encode (i : Instr) : (encode i).length = i.length := by
  cases i <;> rfl

end Sys2Proof

namespace Sys2Proof.Machine

variable {i : Instr} {s : State}

/-! ### The fetch of the instruction at `pc` -/

/-- The cells of `pc`, `pc + 1` and `pc + 2` that exist lie in memory. -/
theorem length_codeBytes_le (hpc : s.pc ≤ 256) : s.pc + s.codeBytes.length ≤ 256 := by
  simp only [State.codeBytes, List.length_map, List.filter_cons, List.filter_nil, decide_eq_true_eq]
  split_ifs <;> simp only [List.length_cons, List.length_nil] <;> omega

/-- The converse of `InstrAt.encode_eq`. -/
theorem instrAt_of_encode_eq (h : encode i = (List.range i.length).map fun k => s.mem.read (s.pc + k)) :
    InstrAt i s := by
  rw [← Nat.sub_add_cancel (length_pos_and_le_three i).1, List.range_succ_eq_map, List.map_cons, List.map_map,
    encode, List.cons.injEq] at h
  obtain ⟨hop, hargs⟩ := h
  exact ⟨hop, by simpa [Function.comp_def, Nat.add_assoc, Nat.add_comm 1] using hargs⟩

/-- The converse of `InstrAt.decode_codeBytes`: the instruction decoded lies at `pc`, in memory as a whole. -/
theorem instrAt_of_decode_codeBytes {rest : List Byte} (hpc : s.pc ≤ 256) (h : decode s.codeBytes = .ok (i, rest)) :
    InstrAt i s ∧ s.pc + i.length ≤ 256 := by
  have hbytes : s.codeBytes = encode i ++ rest := encode_of_decode h
  have hend : s.pc + i.length ≤ 256 := by
    have := length_codeBytes_le hpc
    rw [hbytes, List.length_append, length_encode] at this
    omega
  obtain ⟨rest', hrest⟩ := codeBytes_eq_append (length_pos_and_le_three i).2 hend
  refine ⟨instrAt_of_encode_eq (List.append_inj_left (hbytes.symm.trans hrest) ?_), hend⟩
  rw [length_encode, List.length_map, List.length_range]

/-- The operand fetch through an instruction's row finds the operands that lie at `pc`. -/
theorem InstrAt.fetchOperands_eq (h : InstrAt i s) (hend : s.pc + i.length ≤ 256) (k : Instr → Result) :
    fetchOperands i.row s k = k i := by
  obtain ⟨_, hargs⟩ := h
  cases i with
  | halt | ret => rfl
  | print _ | push _ | pop _ | call _ | jump _ | jumpIfEqual _ | jumpIfNotEqual _ =>
    have hlast : s.pc + 1 ≤ 255 := Nat.le_of_succ_le_succ hend
    cases hargs
    exact operandByte_ok _ hlast
  | loadImmediate _ _ | add _ _ | mul _ _ | cmp _ _ =>
    have hlast : s.pc + 2 ≤ 255 := Nat.le_of_succ_le_succ hend
    cases hargs
    exact (operandByte_ok _ (by omega)).trans (operandByte_ok _ hlast)

/-- A step of a RUNNING state runs the instruction that lies at `pc`, where the eager check passes. -/
theorem InstrAt.stepWith_eq {eager : Bool} (h : InstrAt i s) (hend : s.pc + i.length ≤ 256)
    (hrun : s.run = .running) (heager : eager = true → s.pc ≤ 253) : stepWith eager s = exec i s := by
  have ⟨hop, _⟩ := h
  have ⟨hlen, _⟩ := length_pos_and_le_three i
  rw [stepWith_of_opcode hrun (by omega) heager hop.symm, h.fetchOperands_eq hend]

theorem stepWith_of_decode_codeBytes {eager : Bool} {rest : List Byte} (hrun : s.run = .running) (hpc : s.pc ≤ 255)
    (heager : eager = true → s.pc ≤ 253) (h : decode s.codeBytes = .ok (i, rest)) :
    stepWith eager s = exec i s := by
  obtain ⟨hat, hend⟩ := instrAt_of_decode_codeBytes (by omega) h
  exact hat.stepWith_eq hend hrun heager

/-- Settles O26: what the cells at `pc` decode to lies at `pc`, and the operand fetch finds it. -/
theorem stepRunsTheDecodedInstruction : Obligations.StepRunsTheDecodedInstruction :=
  ⟨fun _ _ _ _ hrun hpc heager h => stepWith_of_decode_codeBytes hrun hpc heager h,
    fun _ _ _ hrun hpc h => stepWith_of_decode_codeBytes hrun (by omega) (fun _ => hpc) h⟩

/-! ### An instruction put at `pc` -/

/-- Memory reads as the bytes put into it, at the addresses that exist. -/
theorem Memory.read_writeBytes {m : Memory} {a n : Nat} {bs : List Byte} (hn : n < bs.length) (ha : a + n < 256) :
    (m.writeBytes a bs).read (a + n) = bs[n] := by
  induction bs generalizing m a n with
  | nil => cases hn
  | cons v bs ih =>
    rw [writeBytes, if_pos (by omega)]
    cases n with
    | zero => exact (read_writeBytes_below _ _ _ _ (by omega)).trans (read_write_same _ _ _)
    | succ n =>
      rw [show a + (n + 1) = a + 1 + n by omega, ih (Nat.lt_of_succ_lt_succ hn) (by omega)]
      rfl

/-- With three cells from `pc` up in memory, a fetch can take all three. -/
theorem codeBytes_eq_map_range (hpc : s.pc ≤ 253) :
    s.codeBytes = (List.range 3).map fun k => s.mem.read (s.pc + k) := by
  rw [State.codeBytes, List.filter_eq_self.mpr]
  · rfl
  · simp only [List.mem_cons, List.not_mem_nil, or_false, decide_eq_true_eq]
    omega

/-- The cells at `pc` are the word put there. -/
theorem codeBytes_withFetchWord (nbits w : Nat) (hpc : s.pc ≤ 253) :
    (s.withFetchWord nbits w).codeBytes = tableWordBytes nbits w := by
  rw [codeBytes_eq_map_range (s := s.withFetchWord nbits w) hpc]
  refine List.ext_getElem rfl fun k _ hk => ?_
  rw [List.getElem_map, List.getElem_range]
  exact Memory.read_writeBytes hk (Nat.add_lt_add_of_le_of_lt hpc hk)

/-- A table word that decodes to an instruction is bytes that the decoder reads it from. -/
theorem exists_decode_of_decodeTableWord {nbits w : Nat} (h : decodeTableWord nbits w = some i) :
    ∃ rest, decode (tableWordBytes nbits w) = .ok (i, rest) := by
  unfold decodeTableWord at h
  split at h
  next j rest hd => cases h; exact ⟨rest, hd⟩
  next => cases h

/-- Settles O27: the cells at `pc` are the word, which decodes to the instruction. -/
theorem fetchWordRunsNext : Obligations.FetchWordRunsNext := by
  intro s nbits w i hrun hpc h
  obtain ⟨rest, hd⟩ := exists_decode_of_decodeTableWord h
  rw [← codeBytes_withFetchWord nbits w hpc] at hd
  exact stepWith_of_decode_codeBytes (s := s.withFetchWord nbits w) hrun (hpc.trans (by decide)) (fun _ => hpc) hd

/-- A state that steps to itself is what every number of steps answers. -/
theorem runSteps_of_step_eq_self (h : step s = .next s) (n : Nat) : runSteps n s = .next s := by
  induction n with
  | zero => rfl
  | succ n ih => rw [runSteps, h]; exact ih

/-- Settles O35: the jump lies at `pc` and its effect is the state itself. -/
theorem jumpToItselfRunsForever : Obligations.JumpToItselfRunsForever := by
  intro s r hrun hpc hop harg hself
  have hr : (BitVec.ofNat 8 r.val).toNat = r.val := Nat.mod_eq_of_lt (Nat.lt_trans r.isLt (by decide))
  have hat : InstrAt (.jump (BitVec.ofNat 8 r.val)) s := ⟨hop.symm, congrArg (fun b => [b]) harg.symm⟩
  have hend : s.pc + 2 ≤ 256 := by omega
  refine runSteps_of_step_eq_self ?_
  calc step s
    _ = exec (.jump (BitVec.ofNat 8 r.val)) s := hat.stepWith_eq hend hrun fun _ => hpc
    _ = .next { s with pc := (s.x[r.val]).toNat } := by rw [exec_jump s (by omega)]; simp only [hr]
    _ = .next s := by rw [hself]

end Sys2Proof.Machine
end

section
/-! Proofs of the statements about `PRINT`, the flags after a compare, and a push with the pop that follows it
(spec/41_halt_load_print.md R114, spec/10_state.md R37, spec/43_stack_and_subroutine.md): each instruction has its
effect, and the rules of the effect say what it leaves. -/

namespace Sys2Proof.Machine

/-! ### The output -/

/-- What the host prints grows by one line for a value that is emitted. -/
theorem outputLines_emit (s : State) (v : Byte) : outputLines (s.emit v) = outputLines s ++ [decimalDigits v] :=
  List.map_append

/-- Settles O3: the effect of `PRINT` on an existing register, what it raises on a byte that names none, and the host's
line for the value emitted. -/
theorem printEmitsTheRegister : Obligations.PrintEmitsTheRegister := by
  refine fun r => ⟨decode_encode_append (.print r), fun s hr => exec_of_effect ⟨hr, rfl⟩,
    fun s hr => exec_of_raises ⟨rfl, rfl, hr⟩, fun s t hr h => ?_⟩
  obtain ⟨_, rfl⟩ | ⟨_, _, _, _, _, hbad⟩ := exec_next h
  · exact outputLines_emit s _
  · exact absurd hr hbad.not_gt

/-! ### The flags -/

theorem flagE_compareFlags (u v : Byte) : flagE (compareFlags u v) = true ↔ u = v := by
  rw [compareFlags_eq_ite]
  split_ifs with heq
  · exact iff_of_true rfl heq
  · exact iff_of_false (by decide) heq
  · exact iff_of_false (by decide) heq

theorem flagG_compareFlags (u v : Byte) : flagG (compareFlags u v) = true ↔ v.toNat < u.toNat := by
  rw [compareFlags_eq_ite]
  split_ifs with heq hlt
  · exact iff_of_false (by decide) (by rw [heq]; exact lt_irrefl _)
  · exact iff_of_true rfl hlt
  · exact iff_of_false (by decide) hlt

theorem getLsbD_compareFlags_of_ge (u v : Byte) {n : Nat} (hn : 2 ≤ n) : (compareFlags u v).getLsbD n = false := by
  have hlt : (compareFlags u v).toNat < 2 ^ 2 := by
    rw [compareFlags_eq_ite]
    split_ifs <;> decide
  exact Nat.testBit_lt_two_pow (hlt.trans_le (Nat.pow_le_pow_right two_pos hn))

/-- Settles O22: the flags written are those of the compare. -/
theorem flagFieldsAfterCompare : Obligations.FlagFieldsAfterCompare := fun _ _ _ ha hb =>
  ⟨_, exec_of_effect ⟨ha, hb, rfl⟩, flagE_compareFlags _ _, flagG_compareFlags _ _,
    fun _ => getLsbD_compareFlags_of_ge _ _⟩

/-! ### The stack over two instructions -/

/-- Settles O36: the push leaves the register's byte on top of the stack, where the pop reads it. -/
theorem pushThenPopRoundTrips : Obligations.PushThenPopRoundTrips := by
  intro r r' s hr hr' h1 h256
  obtain ⟨t, hpush⟩ : ∃ t, Effect (.push r) s t := ⟨_, h1, h256, hr, rfl⟩
  have hsp : t.sp + 1 = s.sp := hpush.sp_of_pushes rfl
  have hpop : Effect (.pop r') t _ := ⟨by omega, hr', rfl⟩
  refine ⟨t, _, exec_of_effect hpush, exec_of_effect hpop, ?_, hsp, hpush.frame.fl nofun, hpush.run_of_pushes rfl⟩
  rw [← hpush.read_sp_of_push hr, ← hpush.x_eq rfl]
  rfl

/-- Settles O37: the return goes to the byte on top of the stack, which is the return address after a call and the
register's byte after a push. -/
theorem returnResumesAfterTheCall : Obligations.ReturnResumesAfterTheCall := by
  refine ⟨fun r s hr h1 h256 hpc => ?_, fun r s hr h1 h256 => ?_⟩
  · obtain ⟨t, hcall⟩ : ∃ t, Effect (.call r) s t := ⟨_, h1, h256, hr, rfl⟩
    have hsp : t.sp + 1 = s.sp := hcall.sp_of_pushes rfl
    have hret : Effect .ret t _ := ⟨by omega, rfl⟩
    refine ⟨t, _, exec_of_effect hcall, exec_of_effect hret, ?_, hsp, hcall.x_eq rfl, hcall.frame.fl nofun,
      hcall.frame.out nofun⟩
    exact hcall.toNat_read_sp_of_call.trans (Nat.mod_eq_of_lt (by omega))
  · obtain ⟨t, hpush⟩ : ∃ t, Effect (.push r) s t := ⟨_, h1, h256, hr, rfl⟩
    have hsp : t.sp + 1 = s.sp := hpush.sp_of_pushes rfl
    have hret : Effect .ret t _ := ⟨by omega, rfl⟩
    exact ⟨t, _, exec_of_effect hpush, exec_of_effect hret, congrArg BitVec.toNat (hpush.read_sp_of_push hr), hsp⟩

end Sys2Proof.Machine
end

section
/-! Proofs of the statements about reset, memory as data, the loader and the exit status
(spec/70_reset_and_hazards.md, spec/20_memory.md, spec/30_encoding.md R85 and R86, spec/60_exceptions.md R216). First
what an accepted image is, from which the invariant at reset and the refusals follow; then canonical memories; then a
program file, from its lines to its values. -/

namespace Sys2Proof.Machine

/-! ### Accepted images -/

/-- The converse of `imageBytes_of_le`: values taken as bytes all fit one. -/
theorem le_of_imageBytes_ok {image : List Nat} {bs : List Byte} (h : imageBytes image = .ok bs) :
    ∀ v ∈ image, v ≤ 255 := by
  induction image generalizing bs with
  | nil => nofun
  | cons v rest ih =>
    rw [imageBytes] at h
    split at h
    next => cases h
    next hv =>
      split at h
      next bs' hrest => exact List.forall_mem_cons.mpr ⟨Nat.le_of_not_lt hv, ih hrest⟩
      next => cases h

/-- The converse of `resetWith_of_le`: only an image that the memory can hold is accepted
(spec/70_reset_and_hazards.md R233). -/
theorem le_of_resetWith_ok {image : List Nat} {d : Draws} {s : State} (h : resetWith image d = .ok s) :
    image.length ≤ 256 ∧ ∀ v ∈ image, v ≤ 255 := by
  rw [resetWith] at h
  cases hc : checkImage image with
  | error e => rw [hc] at h; cases h
  | ok bs =>
    rw [checkImage] at hc
    split at hc
    next => cases hc
    next hlen => exact ⟨Nat.le_of_not_lt hlen, le_of_imageBytes_ok hc⟩

/-- Memory made from an image that fits and the draws behind it has 256 bytes. -/
theorem inv_resetState (d : Draws) {bs : List Byte} (hlen : bs.length ≤ 256) : Inv (resetState bs d) := by
  have hmem : (bs ++ d.memInit.toList.drop bs.length).length = 256 := by
    rw [List.length_append, List.length_drop, Vector.length_toList]
    omega
  exact ⟨Nat.zero_le _, (by decide : Config.spReset ≤ 256), Memory.wfFrom_ofBytes 0 _ (by omega), nofun, fun _ => rfl⟩

/-- Settles O41: an accepted image fits, and the other fields are in range as given. -/
theorem everyResetMeetsTheInvariant : Obligations.EveryResetMeetsTheInvariant := by
  intro image d s h
  obtain ⟨hlen, hbyte⟩ := le_of_resetWith_ok h
  rw [resetWith_of_le d hlen hbyte] at h
  cases h
  exact inv_resetState d (by rwa [List.length_map])

/-- Memory made from bytes that an unlisted cell reads as lists none. -/
theorem Memory.ofBytes_replicate_unlistedByte (a n : Nat) :
    ofBytes a (List.replicate n Config.unlistedByte) = [] := by
  induction n generalizing a with
  | zero => rfl
  | succ n ih => rw [List.replicate_succ, ofBytes, if_pos rfl, ih]

/-- Settles O44: the named draws leave every cell unlisted, and give the registers and flags their named values. -/
theorem namedResetIsAReset : Obligations.NamedResetIsAReset := by
  have hmem : Memory.ofBytes 0 Draws.named.memInit.toList = [] := by
    rw [Draws.named, Vector.toList_replicate, Memory.ofBytes_replicate_unlistedByte]
  calc resetWith [] Draws.named
    _ = .ok { State.reset with mem := Memory.ofBytes 0 Draws.named.memInit.toList } := rfl
    _ = .ok State.reset := by rw [hmem]; rfl

/-- Settles O40: `State.reset` is the reset of an accepted image. -/
theorem resetMeetsTheInvariant : Obligations.ResetMeetsTheInvariant :=
  everyResetMeetsTheInvariant [] Draws.named State.reset namedResetIsAReset

/-! ### Canonical memories -/

namespace Memory

/-- A canonical memory has no entry below its first address. -/
theorem read_of_lt_of_wfFrom {lo a : Nat} {m : Memory} (h : wfFrom lo m = true) (ha : a < lo) :
    read m a = Config.unlistedByte := by
  induction m generalizing lo with
  | nil => rfl
  | cons c m ih =>
    obtain ⟨hlo, _, _, hm⟩ := (wfFrom_cons lo c m).mp h
    rw [read_cons, if_neg (by omega), ih hm (by omega)]

/-- The first entry of a canonical memory is seen by a read. -/
theorem read_head_ne {lo : Nat} {c : Host.Cell} {m : Memory} (h : wfFrom lo (c :: m) = true) :
    read (c :: m) c.1 ≠ Config.unlistedByte := by
  obtain ⟨_, _, hne, _⟩ := (wfFrom_cons lo c m).mp h
  rwa [read_cons, if_pos rfl]

/-- The first address of one of two canonical memories that read alike is not below that of the other. -/
theorem le_of_read_eq {lo lo' : Nat} {c c' : Host.Cell} {m m' : Memory} (h : wfFrom lo (c :: m) = true)
    (h' : wfFrom lo' (c' :: m') = true) (hread : read (c :: m) c.1 = read (c' :: m') c.1) : c'.1 ≤ c.1 := by
  by_contra hlt
  obtain ⟨_, hlt', hne, hm⟩ := (wfFrom_cons lo' c' m').mp h'
  have hself : wfFrom c'.1 (c' :: m') = true := (wfFrom_cons _ _ _).mpr ⟨le_rfl, hlt', hne, hm⟩
  exact read_head_ne h (hread.trans (read_of_lt_of_wfFrom hself (Nat.lt_of_not_le hlt)))

theorem eq_of_read_eq {lo : Nat} {m m' : Memory} (h : wfFrom lo m = true) (h' : wfFrom lo m' = true)
    (hread : ∀ a, a < 256 → read m a = read m' a) : m = m' := by
  induction m generalizing lo m' with
  | nil =>
    cases m' with
    | nil => rfl
    | cons c' m' =>
      obtain ⟨_, hc, _, _⟩ := (wfFrom_cons lo c' m').mp h'
      exact absurd (hread c'.1 hc).symm (read_head_ne h')
  | cons c m ih =>
    obtain ⟨_, hc, _, hm⟩ := (wfFrom_cons lo c m).mp h
    cases m' with
    | nil => exact absurd (hread c.1 hc) (read_head_ne h)
    | cons c' m' =>
      obtain ⟨_, hc', _, hm'⟩ := (wfFrom_cons lo c' m').mp h'
      have haddr : c.1 = c'.1 :=
        le_antisymm (le_of_read_eq h' h (hread c'.1 hc').symm) (le_of_read_eq h h' (hread c.1 hc))
      have hbyte : c.2 = c'.2 := by simpa [read_cons, haddr] using hread c.1 hc
      obtain rfl : c = c' := Prod.ext haddr hbyte
      refine congrArg (c :: ·) (ih hm hm' fun a ha => ?_)
      by_cases hac : a = c.1
      · rw [read_of_lt_of_wfFrom hm (by omega), read_of_lt_of_wfFrom hm' (by omega)]
      · simpa [read_cons, hac] using hread a ha

end Memory

/-- Settles O45: entry by entry, since the first address of either memory is seen by a read of the other. -/
theorem equalMemoriesAreEqualData : Obligations.EqualMemoriesAreEqualData :=
  fun _ _ h h' hread => Memory.eq_of_read_eq h h' hread

/-! ### Refusals -/

/-- An image that the memory cannot hold is refused, since an accepted one fits. -/
theorem exists_error_of_not_le {image : List Nat} (d : Draws)
    (h : ¬ (image.length ≤ 256 ∧ ∀ v ∈ image, v ≤ 255)) : ∃ e, resetWith image d = .error e := by
  cases hr : resetWith image d with
  | error e => exact ⟨e, rfl⟩
  | ok s => exact absurd (le_of_resetWith_ok hr) h

/-- The lines of a loaded file are blank or binary literals. -/
theorem binaryValue_ne_none_of_linesValues_ok {lines : List (List Char)} {vs : List Nat}
    (h : linesValues lines = .ok vs) {line : List Char} (hline : line ∈ lines) (ht : lineToken line ≠ []) :
    binaryValue 0 (lineToken line) ≠ none := by
  induction lines generalizing vs with
  | nil => cases hline
  | cons l rest ih =>
    rw [linesValues] at h
    split at h
    next hl =>
      obtain rfl | hrest := List.mem_cons.mp hline
      · exact absurd hl ht
      · exact ih h hrest
    next =>
      split at h
      next => cases h
      next => cases h
      next v vs' hv hvs =>
        obtain rfl | hrest := List.mem_cons.mp hline
        · rw [hv]; nofun
        · exact ih hvs hrest

theorem start_of_loadFile_error {text : Option (List Char)} {e : LoadError} (d : Draws)
    (h : loadFile text = .error e) : start text d = .error e := by
  rw [start, h]

/-- Settles O43: what is accepted, as an image or as a file, is neither too long nor too large nor malformed. -/
theorem badImagesAreRefused : Obligations.BadImagesAreRefused := by
  refine ⟨fun image d hlen => exists_error_of_not_le d fun ⟨h, _⟩ => absurd h hlen.not_ge,
    fun image d v hv hbig => exists_error_of_not_le d fun ⟨_, h⟩ => absurd (h v hv) hbig.not_ge,
    fun d => start_of_loadFile_error d rfl, fun text line d hline ht hv => ?_,
    fun text d e h => start_of_loadFile_error d h⟩
  cases hl : loadFile (some text) with
  | error e => exact ⟨e, start_of_loadFile_error d hl⟩
  | ok image => exact absurd hv (binaryValue_ne_none_of_linesValues_ok hl hline ht)

/-! ### The program file of a list of bytes -/

theorem fileLines_ne_nil (text : List Char) : fileLines text ≠ [] := by
  cases text with
  | nil => nofun
  | cons c rest =>
    rw [fileLines]
    split
    · nofun
    · split <;> nofun

/-- A line feed ends a line. -/
theorem fileLines_cons_lf (rest : List Char) : fileLines ('\n' :: rest) = [] :: fileLines rest := by
  rw [fileLines]
  split
  next h => exact absurd h (fileLines_ne_nil rest)
  next l ls h => rw [if_pos (by decide), h]

/-- A line without line feeds, ended by one, is the first line of a file. -/
theorem fileLines_line_append {line : List Char} (h : '\n' ∉ line) (rest : List Char) :
    fileLines (line ++ '\n' :: rest) = line :: fileLines rest := by
  induction line with
  | nil => exact fileLines_cons_lf rest
  | cons c line ih =>
    simp only [List.mem_cons, not_or] at h
    obtain ⟨hc, hline⟩ := h
    rw [List.cons_append, fileLines, ih hline]
    simp [Ne.symm hc]

/-- Trimming takes nothing from characters that are no blanks. -/
theorem dropWhile_isBlankChar_eq_self {l : List Char} (h : ∀ c ∈ l, isBlankChar c = false) :
    l.dropWhile isBlankChar = l :=
  List.dropWhile_eq_self_iff.mpr fun hl => Bool.eq_false_iff.mp (h _ (List.getElem_mem hl))

/-- The token of a line is what stands before a space and a comment, if it holds neither a blank nor a `#`. -/
theorem lineToken_append_comment {token : List Char} (hblank : ∀ c ∈ token, isBlankChar c = false)
    (hhash : '#' ∉ token) (comment : List Char) : lineToken (token ++ ' ' :: '#' :: comment) = token := by
  have hcut : (token ++ ' ' :: '#' :: comment).takeWhile (· != '#') = token ++ [' '] := by
    rw [List.takeWhile_append_of_pos fun c hc => bne_iff_ne.mpr (ne_of_mem_of_not_mem hc hhash)]
    rfl
  cases token with
  | nil => rfl
  | cons c cs =>
    have hfront : ¬ isBlankChar c = true := Bool.eq_false_iff.mp (hblank c List.mem_cons_self)
    have hback : ((c :: cs).reverse).dropWhile isBlankChar = (c :: cs).reverse :=
      dropWhile_isBlankChar_eq_self fun d hd => hblank d (List.mem_reverse.mp hd)
    rw [lineToken, hcut, List.cons_append, List.dropWhile_cons_of_neg hfront, ← List.cons_append, List.reverse_concat,
      List.dropWhile_cons_of_pos (by decide), hback, List.reverse_reverse]

/-- The binary digit of a bit. -/
theorem binaryValue_bit (acc : Nat) (b : Bool) (rest : List Char) :
    binaryValue acc ((if b then '1' else '0') :: rest) = binaryValue (2 * acc + b.toNat) rest := by
  cases b <;> rfl

/-- Read after the digits above them, the `n` lowest binary digits of a byte complete its value. -/
theorem binaryValue_low_bits (v : Byte) (n : Nat) :
    binaryValue (v.toNat / 2 ^ n) ((List.range n).reverse.map fun k => if v.getLsbD k then '1' else '0') =
      some v.toNat := by
  induction n with
  | zero => simp [binaryValue]
  | succ n ih =>
    rw [List.range_succ, List.reverse_append, List.reverse_singleton, List.singleton_append, List.map_cons,
      binaryValue_bit, ← ih]
    congr 1
    rw [BitVec.getLsbD, Nat.toNat_testBit, Nat.pow_succ, ← Nat.div_div_eq_div_mul]
    omega

theorem binaryValue_binaryLine (v : Byte) : binaryValue 0 (binaryLine v) = some v.toNat := by
  have h := binaryValue_low_bits v 8
  rwa [Nat.div_eq_of_lt v.isLt] at h

theorem eq_digit_of_mem_binaryLine {v : Byte} {c : Char} (h : c ∈ binaryLine v) : c = '0' ∨ c = '1' := by
  obtain ⟨n, _, rfl⟩ := List.mem_map.mp h
  split
  · exact .inr rfl
  · exact .inl rfl

theorem linesValues_cons {line : List Char} {lines : List (List Char)} {v : Nat} {vs : List Nat}
    (ht : lineToken line ≠ []) (hv : binaryValue 0 (lineToken line) = some v) (hvs : linesValues lines = .ok vs) :
    linesValues (line :: lines) = .ok (v :: vs) := by
  rw [linesValues]
  split
  next h => exact absurd h ht
  next => rw [hv, hvs]

/-- A line that gives a byte, with its comment, holds the byte's digits as its token. -/
theorem lineToken_binaryLine (v : Byte) (comment : List Char) :
    lineToken (binaryLine v ++ ' ' :: '#' :: comment) = binaryLine v := by
  refine lineToken_append_comment (fun c hc => ?_) (fun hc => ?_) comment
  · obtain rfl | rfl := eq_digit_of_mem_binaryLine hc <;> decide
  · simpa using eq_digit_of_mem_binaryLine hc

theorem lf_not_mem_binaryLine_append (v : Byte) {comment : List Char} (h : '\n' ∉ comment) :
    '\n' ∉ binaryLine v ++ ' ' :: '#' :: comment := by
  have hdigits : '\n' ∉ binaryLine v := fun hc => by simpa using eq_digit_of_mem_binaryLine hc
  simp [hdigits, h]

/-- Settles O49, line by line: each is the first line of what is left of the file and gives its byte. -/
theorem programFileRoundTrips : Obligations.ProgramFileRoundTrips := by
  intro lines h
  induction lines with
  | nil => rfl
  | cons l lines ih =>
    obtain ⟨hl, hlines⟩ := List.forall_mem_cons.mp h
    rw [loadFile, List.flatMap_cons, List.append_assoc, List.singleton_append,
      fileLines_line_append (lf_not_mem_binaryLine_append l.1 hl)]
    have htoken := lineToken_binaryLine l.1 l.2
    exact linesValues_cons (by rw [htoken]; nofun) (by rw [htoken, binaryValue_binaryLine]) (ih hlines)

/-! ### The exit status -/

/-- Settles O50: the host reads the run state and, when FAULTED, the cause. -/
theorem exitStatusTellsTheEnd : Obligations.ExitStatusTellsTheEnd := by
  rintro p s ⟨hload, hillegal, hne⟩
  refine ⟨fun hr => ?_, fun hr => exitStatus_of_halted p hr,
    fun hr hc => ⟨?_, hillegal, fun _ => ⟨hne, hload⟩⟩, fun hr hc => ?_⟩
  · rw [exitStatus, hr]
  · rw [exitStatus, hr, hc]
  · rw [exitStatus, hr, hc]

end Sys2Proof.Machine
end
